-- ==== Sys2Proof/Word.lean ====
section
/-! DEFINITION. The machine's word and its two integer readings (00_scope.md R9). -/

namespace Sys2Proof

/-- A register, a data-memory word, a slot value and `pc`: 32 bits (00_scope.md R7 `XLEN`, `PCLEN`; R9). -/
abbrev Word := BitVec 32

/-- `signed(v)`: the two's complement reading, in [-2^31, 2^31 - 1] (00_scope.md R9). -/
def signed (v : Word) : Int := v.toInt

/-- `unsigned(v)`: the reading in [0, 2^32 - 1] (00_scope.md R9). -/
def unsigned (v : Word) : Nat := v.toNat

/-- `wrap32(n)`: the 32-bit pattern congruent to `n` modulo 2^32 (00_scope.md R9). -/
def wrap32 (n : Int) : Word := BitVec.ofInt 32 n

end Sys2Proof
end

