-- ==== Sys2Proof/Config.lean ====
section
/-! DEFINITION. What an implementation fixes (the spec's OPEN parameters, 00_scope.md R7) and the one free value
(`UNSPEC32`, 00_scope.md R10). -/

namespace Sys2Proof

/-- `CTRL_POLICY`, the control-flow policy of the ID phase (00_scope.md R7, 46_control.md R230). -/
inductive CtrlPolicy where
  /-- A `beq` consults and updates the predictor and is squashed on a misprediction (46_control.md R231). -/
  | predictVerify
  /-- A `beq` is resolved outright and always squashed (46_control.md R233). -/
  | resolveInDecode
  deriving DecidableEq, Repr

/-- The parameters marked OPEN in 00_scope.md R7. The default values are the spec's own (R7; 93 P1, P2). -/
structure Params where
  /-- `CTRL_POLICY`; this hardware's default is `PredictVerify`. -/
  ctrlPolicy : CtrlPolicy := .predictVerify
  /-- `IMEM_WORDS`: an address at or beyond it is a hole; `none` is the default, no bound other than `PCLEN`. -/
  imemWords : Option Nat := none
  deriving DecidableEq, Repr

/-- `UNSPEC32` (00_scope.md R10; 93_implementation_defined.md U1): the `n`-th value the spec does not fix. It has no
body, so nothing can be proved about which value it is. (DESIGN CHOICE of form, assumption 4; safe.) -/
opaque Config.unspec32 : Nat → Word

end Sys2Proof
end

