-- ==== Sys2Proof/Syntax.lean ====
section
/-! DEFINITION. The Instruction Model (30_encoding.md Part 1): one constructor per row of spec/opcode_table.json. -/

namespace Sys2Proof

/-- A register index 0..31 (30_encoding.md R92, R93). -/
abbrev RegIdx := Fin 32

/-- An Instruction: a closed tagged variant over R-type, I-type, J-type and NOP (30_encoding.md R90, R91). Equality is
structural. The display label of R95 is omitted, as the rule says a model does. `offset` is a signed integer (R93)
and `target` a non-negative one (R94); their ranges (R97) are checked by `Instr.wf`. -/
inductive Instr where
  /-- `add rd, rs, rt` (44_arith.md R210). -/
  | add (rd rs rt : RegIdx)
  /-- `sub rd, rs, rt` (44_arith.md R211). -/
  | sub (rd rs rt : RegIdx)
  /-- `mul rd, rs, rt` (44_arith.md R212). -/
  | mul (rd rs rt : RegIdx)
  /-- `lw rt, offset(rs)` (45_loadstore.md R220). -/
  | lw (rs rt : RegIdx) (offset : Int)
  /-- `sw rt, offset(rs)` (45_loadstore.md R221). -/
  | sw (rs rt : RegIdx) (offset : Int)
  /-- `beq rs, rt, offset` (46_control.md R230). -/
  | beq (rs rt : RegIdx) (offset : Int)
  /-- `j target` (46_control.md R235). -/
  | j (target : Nat)
  /-- `nop`, the canonical `NOP` (30_encoding.md R94, 47_nop.md R250). -/
  | nop
  deriving DecidableEq, Repr

end Sys2Proof
end

