-- ==== Sys2Proof/WellFormed.lean ====
section
/-! DEFINITION. The field ranges of 30_encoding.md R97 (register indices are in range by their type). -/

namespace Sys2Proof

/-- `offset` in -32768..32767 (30_encoding.md R97). -/
def offsetInRange (offset : Int) : Bool := decide (-32768 ≤ offset) && decide (offset ≤ 32767)

/-- `target` in 0..2^26-1 (30_encoding.md R97). -/
def targetInRange (target : Nat) : Bool := decide (target ≤ 67108863)

/-- The fields of an instruction are in the ranges of 30_encoding.md R97. -/
def Instr.wf : Instr → Bool
  | .add _ _ _ => true
  | .sub _ _ _ => true
  | .mul _ _ _ => true
  | .lw _ _ offset => offsetInRange offset
  | .sw _ _ offset => offsetInRange offset
  | .beq _ _ offset => offsetInRange offset
  | .j target => targetInRange target
  | .nop => true

end Sys2Proof
end

