-- ==== Sys2Proof/Decode.lean ====
section
/-! DEFINITION. The binary instruction word (30_encoding.md Part 2): decoder and, after it, encoder. -/

namespace Sys2Proof

/-! ### Fields (30_encoding.md R101, R102) -/

/-- `rs`, bits 25:21. -/
def fieldRs (w : Word) : RegIdx := (w.extractLsb' 21 5).toFin

/-- `rt`, bits 20:16. -/
def fieldRt (w : Word) : RegIdx := (w.extractLsb' 16 5).toFin

/-- `rd`, bits 15:11. -/
def fieldRd (w : Word) : RegIdx := (w.extractLsb' 11 5).toFin

/-- `offset = sext_16(w[15:0])`, no scaling at decode (30_encoding.md R102). -/
def fieldOffset (w : Word) : Int := (w.extractLsb' 0 16).toInt

/-- `target = zext_26(w[25:0])` (30_encoding.md R102). -/
def fieldTarget (w : Word) : Nat := (w.extractLsb' 0 26).toNat

/-! ### The opcode map (30_encoding.md R103) -/

/-- A row of the opcode map: a word `w` selects it when `w and mask == pattern`. -/
structure OpcodeRow where
  mask    : Word
  pattern : Word
  build   : Word → Instr

/-- The word selects the row (30_encoding.md R103). -/
def OpcodeRow.selects (r : OpcodeRow) (w : Word) : Bool := w &&& r.mask == r.pattern

def rowNop : OpcodeRow := ⟨0xFFFFFFFF, 0x00000000, fun _ => .nop⟩
def rowAdd : OpcodeRow := ⟨0xFC0007FF, 0x00000020, fun w => .add (fieldRd w) (fieldRs w) (fieldRt w)⟩
def rowSub : OpcodeRow := ⟨0xFC0007FF, 0x00000022, fun w => .sub (fieldRd w) (fieldRs w) (fieldRt w)⟩
def rowMul : OpcodeRow := ⟨0xFC0007FF, 0x70000002, fun w => .mul (fieldRd w) (fieldRs w) (fieldRt w)⟩
def rowJ   : OpcodeRow := ⟨0xFC000000, 0x08000000, fun w => .j (fieldTarget w)⟩
def rowBeq : OpcodeRow := ⟨0xFC000000, 0x10000000, fun w => .beq (fieldRs w) (fieldRt w) (fieldOffset w)⟩
def rowLw  : OpcodeRow := ⟨0xFC000000, 0x8C000000, fun w => .lw (fieldRs w) (fieldRt w) (fieldOffset w)⟩
def rowSw  : OpcodeRow := ⟨0xFC000000, 0xAC000000, fun w => .sw (fieldRs w) (fieldRt w) (fieldOffset w)⟩

/-- The eight rows in the order of 30_encoding.md R103; they are pairwise disjoint. -/
def opcodeRows : List OpcodeRow := [rowNop, rowAdd, rowSub, rowMul, rowJ, rowBeq, rowLw, rowSw]

/-- Why a word is not an instruction. -/
inductive WordRejection where
  /-- The word matches no row of 30_encoding.md R103: reserved or illegal, so its address is a hole (R105). -/
  | noRowMatches (w : Word)
  deriving DecidableEq, Repr

/-- Total decoder, rejecting by name: test the eight rows (30_encoding.md R104). -/
def decodeNamed (w : Word) : Except WordRejection Instr :=
  match opcodeRows.find? (·.selects w) with
  | some r => .ok (r.build w)
  | none   => .error (.noRowMatches w)

/-- `decode : 32-bit word -> optional Instruction` (30_encoding.md R104). -/
def decode (w : Word) : Option Instr :=
  match decodeNamed w with
  | .ok i    => some i
  | .error _ => none

/-- The decoder on a word given as spec/opcode_table.json numbers its bits. Every instruction is one 32-bit word
(30_encoding.md R100), so the table's numbering is the word's own (R8) and no byte order is involved (20_memory.md
R66). Bits at `nbits` and above are 0; a number of more than 32 bits is no instruction word. -/
def decodeTableWord (nbits w : Nat) : Option Instr :=
  if w % 2 ^ nbits < 2 ^ 32 then decode (BitVec.ofNat 32 (w % 2 ^ nbits)) else none

/-! ### The encoder (30_encoding.md R101, R103, R104), written from the format table, not from the decoder -/

/-- R-format: opcode, rs, rt, rd, `00000`, funct. -/
def encodeR (opcode : BitVec 6) (rs rt rd : RegIdx) (funct : BitVec 6) : Word :=
  opcode ++ BitVec.ofFin (w := 5) rs ++ BitVec.ofFin (w := 5) rt ++ BitVec.ofFin (w := 5) rd ++ 0#5 ++ funct

/-- I-format: opcode, rs, rt, imm16. -/
def encodeI (opcode : BitVec 6) (rs rt : RegIdx) (offset : Int) : Word :=
  opcode ++ BitVec.ofFin (w := 5) rs ++ BitVec.ofFin (w := 5) rt ++ BitVec.ofInt 16 offset

/-- J-format: opcode, target26. -/
def encodeJ (opcode : BitVec 6) (target : Nat) : Word :=
  opcode ++ BitVec.ofNat 26 target

/-- `encode` (30_encoding.md R103, R104): the word of an instruction whose fields are in the ranges of R97. -/
def encode : Instr → Word
  | .add rd rs rt     => encodeR 0b000000 rs rt rd 0b100000
  | .sub rd rs rt     => encodeR 0b000000 rs rt rd 0b100010
  | .mul rd rs rt     => encodeR 0b011100 rs rt rd 0b000010
  | .lw rs rt offset  => encodeI 0b100011 rs rt offset
  | .sw rs rt offset  => encodeI 0b101011 rs rt offset
  | .beq rs rt offset => encodeI 0b000100 rs rt offset
  | .j target         => encodeJ 0b000010 target
  | .nop              => 0x00000000

end Sys2Proof
end

