-- ==== Sys2Proof/Machine/Store.lean ====
section
/-! DEFINITION. The machine's three maps (data memory, instruction store, predictor table) as lists of key and value
pairs in one canonical form, keys strictly rising (DESIGN CHOICE of form, assumptions 1 and 11; safe). -/

namespace Sys2Proof.Machine

variable {α : Type}

/-- The value at a key, if the key is listed. -/
def lookupAt : List (Nat × α) → Nat → Option α
  | [], _ => none
  | (k, v) :: m, a => if a = k then some v else lookupAt m a

/-- Put a value at a key, keeping the keys in order; an entry already there is replaced. -/
def insertAt (a : Nat) (x : α) : List (Nat × α) → List (Nat × α)
  | [] => [(a, x)]
  | (k, v) :: m =>
    if a < k then (a, x) :: (k, v) :: m
    else if a = k then (a, x) :: m
    else (k, v) :: insertAt a x m

/-- Take a key out. -/
def eraseAt (a : Nat) (m : List (Nat × α)) : List (Nat × α) := m.filter fun e => e.1 ≠ a

/-- The keys rise strictly, so no key is listed twice. -/
abbrev keysAscend (m : List (Nat × α)) : Prop := m.Pairwise fun e f => e.1 < f.1

/-! ### Data memory (20_memory.md R61) -/

/-- `M`, keyed by the byte address of a word. The spec gives the machine no unit narrower than the aligned 32-bit word
and no byte view (20_memory.md R64, R66), so a cell is a word (assumption 1). -/
abbrev Memory := List (Nat × Word)

/-- What an unlisted word reads as: the reset value of every word (10_state.md R43). -/
def wordAtReset : Word := 0

/-- `ValidDAddr(a)` for a mathematical integer `a` (20_memory.md R62). -/
def validDAddr (a : Int) : Bool := decide (0 ≤ a) && decide (a ≤ 4092) && decide (a % 4 = 0)

/-- The word at a byte address. -/
def Memory.readWord (m : Memory) (a : Nat) : Word := (lookupAt m a).getD wordAtReset

/-- Write the word at a byte address; writing what an unlisted address reads as takes the entry out. -/
def Memory.writeWord (m : Memory) (a : Nat) (v : Word) : Memory :=
  if v = wordAtReset then eraseAt a m else insertAt a v m

/-- The canonical form of data memory: addresses strictly rising, each a valid one (20_memory.md R62), no entry equal
to what an unlisted address reads as. -/
abbrev Memory.wf (m : Memory) : Prop :=
  keysAscend m ∧ ∀ e ∈ m, e.2 ≠ wordAtReset ∧ validDAddr e.1 = true

/-! ### Instruction store (10_state.md R44, 20_memory.md R70) -/

/-- `IMEM`: a partial map from byte address to Instruction. -/
abbrev InstrStore := List (Nat × Instr)

/-- The byte address lies within the extent `IMEM_WORDS`; without a bound, within the 2^32 bytes `pc` reaches
(00_scope.md R7; 93 P2). -/
def inExtent (p : Params) (a : Nat) : Bool :=
  decide (a < 2 ^ 32) && (match p.imemWords with
    | none   => true
    | some n => decide (a / 4 < n))

/-- An address at which the store may hold an Instruction: a multiple of 4 (20_memory.md R69) within the extent. -/
def storableAt (p : Params) (a : Nat) : Bool := decide (a % 4 = 0) && inExtent p a

/-- `IFetch(a)`: the Instruction at byte address `a`, or none. An address that is not a multiple of 4 and an address at
or beyond `IMEM_WORDS` hold none (20_memory.md R69, R70; 92 D4). -/
def InstrStore.fetch (p : Params) (m : InstrStore) (a : Nat) : Option Instr :=
  if storableAt p a then lookupAt m a else none

/-- Store an Instruction at an address, where the store may hold one and its fields are in range (30_encoding.md R97);
otherwise, as when there is none to store, the address is a hole (30_encoding.md R105, 50_host_interface.md R265;
assumption 11). -/
def InstrStore.put (p : Params) (a : Nat) (o : Option Instr) (m : InstrStore) : InstrStore :=
  match o with
  | some i => if storableAt p a && i.wf then insertAt a i m else eraseAt a m
  | none   => eraseAt a m

/-- The canonical form of the instruction store: addresses strictly rising, each one at which the store may hold an
Instruction, each entry with its fields in range (30_encoding.md R97). -/
abbrev InstrStore.wf (p : Params) (m : InstrStore) : Prop :=
  keysAscend m ∧ ∀ e ∈ m, storableAt p e.1 = true ∧ e.2.wf = true

/-! ### Predictor table (10_state.md R37) -/

/-- A 2-bit saturating counter in {0, 1, 2, 3} (43_branch_predictor.md R200). -/
abbrev Counter := Fin 4

/-- `BP`: a partial map from branch byte address to counter; one entry per address, no aliasing (R200, 92 D6). -/
abbrev PredTable := List (Nat × Counter)

/-- The canonical form of the predictor table: addresses strictly rising, each a multiple of 4 below 2^32. -/
abbrev PredTable.wf (t : PredTable) : Prop :=
  keysAscend t ∧ ∀ e ∈ t, e.1 % 4 = 0 ∧ e.1 < 2 ^ 32

end Sys2Proof.Machine
end

