-- ==== Sys2Proof/Machine/State.lean ====
section
/-! DEFINITION. The state of the machine (10_state.md), its value at reset, and the reasons a step can stop. -/

namespace Sys2Proof.Machine

/-- The ID payload (10_state.md R32): the instruction and its cached operand values. -/
structure IdPayload where
  instr   : Instr
  rsValue : Word
  rtValue : Word
  deriving DecidableEq, Repr

/-- The payload of EX, MEM and WB (10_state.md R33, R34, R35): the instruction and its result. -/
structure Payload where
  instr  : Instr
  result : Word
  deriving DecidableEq, Repr

/-- Which phase hands its instruction to `exec`. An instruction acts in four phases of four different steps
(40_engine_step.md section 9), and `exec i s` is what `i` does in the phase named here. The MODEL's own bookkeeping: the
step sets it before each of the four phases (DESIGN CHOICE, assumption 2; safe). -/
inductive Stage where
  /-- The WB phase: the instruction in MEM writes its register and moves to WB (40_engine_step.md R150). -/
  | wb
  /-- The MEM phase: the instruction in EX accesses memory and moves to MEM (40_engine_step.md R153). -/
  | mem
  /-- The EX phase: the instruction in ID computes its result and moves to EX (40_engine_step.md R156). -/
  | ex
  /-- The ID phase: the instruction in IF writes `pc`, reads its registers and moves to ID (40_engine_step.md R160). -/
  | id
  deriving DecidableEq, Repr

/-- The state (10_state.md, head and R45), and three fields of the model's own: `stage`, `draws`, `params`. -/
structure State where
  /-- `x[0..31]` (10_state.md R20); register 0 is ordinary (R22). -/
  regs    : Vector Word 32
  /-- The program counter, a byte address (10_state.md R26, R27). -/
  pc      : Word
  /-- Data memory `M` (10_state.md R43). -/
  mem     : Memory
  /-- The instruction store `IMEM` (10_state.md R44). -/
  imem    : InstrStore
  /-- The IF slot (10_state.md R31). -/
  ifSlot  : Option Instr
  /-- The ID slot (10_state.md R32). -/
  idSlot  : Option IdPayload
  /-- The EX slot (10_state.md R33). -/
  exSlot  : Option Payload
  /-- The MEM slot (10_state.md R34). -/
  memSlot : Option Payload
  /-- The WB slot (10_state.md R35). -/
  wbSlot  : Option Payload
  /-- The branch predictor table `BP` (10_state.md R37). -/
  bp      : PredTable
  /-- The hazard flag of the last step (10_state.md R41). -/
  stalled : Bool
  /-- The cycle counter, an unbounded natural (10_state.md R42). -/
  cycle   : Nat
  /-- Model's own: the phase that hands its instruction to `exec` (assumption 2). -/
  stage   : Stage
  /-- Model's own: how many `UNSPEC32` values have been drawn (assumption 4). -/
  draws   : Nat
  /-- Model's own place for the parameters `CTRL_POLICY` and `IMEM_WORDS`, which nothing changes (assumption 3). -/
  params  : Params
  deriving DecidableEq, Repr

/-- The machine right after reset and after construction, with the parameters given (10_state.md R45). -/
def State.resetWith (p : Params) : State where
  regs    := Vector.replicate 32 0
  pc      := 0
  mem     := []
  imem    := []
  ifSlot  := none
  idSlot  := none
  exSlot  := none
  memSlot := none
  wbSlot  := none
  bp      := []
  stalled := false
  cycle   := 0
  stage   := .id
  draws   := 0
  params  := p

/-- The machine right after reset with this hardware's default parameters (10_state.md R45, 00_scope.md R7). -/
def State.reset : State := State.resetWith {}

/-- Why a step could stop with a fault: there is no reason. The hardware raises no exception and a step is defined on
every state (60_exceptions.md R290, 40_engine_step.md R140), so the type has no constructor (DEDUCED, assumption 13;
safe). -/
inductive Fault where
  deriving DecidableEq, Repr

/-- Why a step could be refused. -/
inductive Refusal where
  /-- Raised by an arm of `exec` whose instruction has no meaning yet; safe. No arm raises it. -/
  | notModelled (mnemonic : String)
  deriving DecidableEq, Repr

end Sys2Proof.Machine
end

