-- ==== Sys2Proof/Machine/Operands.lean ====
section
/-! DEFINITION. The classifiers on instructions (30_encoding.md R96) and the operand forms. -/

namespace Sys2Proof.Machine

/-- `isR(I)`: `add`, `sub` or `mul` (30_encoding.md R96). -/
def isR : Instr → Bool
  | .add _ _ _ | .sub _ _ _ | .mul _ _ _ => true
  | .lw _ _ _ | .sw _ _ _ | .beq _ _ _ | .j _ | .nop => false

/-- `isI(I)`: `lw`, `sw` or `beq` (30_encoding.md R96). -/
def isI : Instr → Bool
  | .lw _ _ _ | .sw _ _ _ | .beq _ _ _ => true
  | .add _ _ _ | .sub _ _ _ | .mul _ _ _ | .j _ | .nop => false

/-- `isMemOp(I)`: `lw` or `sw` (30_encoding.md R96). -/
def isMemOp : Instr → Bool
  | .lw _ _ _ | .sw _ _ _ => true
  | .add _ _ _ | .sub _ _ _ | .mul _ _ _ | .beq _ _ _ | .j _ | .nop => false

/-- `isMul(I)` (30_encoding.md R96). -/
def isMul : Instr → Bool
  | .mul _ _ _ => true
  | .add _ _ _ | .sub _ _ _ | .lw _ _ _ | .sw _ _ _ | .beq _ _ _ | .j _ | .nop => false

/-- `isLoad(I)` (30_encoding.md R96). -/
def isLoad : Instr → Bool
  | .lw _ _ _ => true
  | .add _ _ _ | .sub _ _ _ | .mul _ _ _ | .sw _ _ _ | .beq _ _ _ | .j _ | .nop => false

/-- `isCtrl(I)`: `beq` or `j` (30_encoding.md R96). -/
def isCtrl : Instr → Bool
  | .beq _ _ _ | .j _ => true
  | .add _ _ _ | .sub _ _ _ | .mul _ _ _ | .lw _ _ _ | .sw _ _ _ | .nop => false

/-- `hasRsRt(I)`: the six operations with `rs` and `rt` fields (30_encoding.md R96). -/
def hasRsRt (i : Instr) : Bool := isR i || isI i

/-- The `rs` field, where there is one. -/
def rsOf : Instr → Option RegIdx
  | .add _ rs _ | .sub _ rs _ | .mul _ rs _ | .lw rs _ _ | .sw rs _ _ | .beq rs _ _ => some rs
  | .j _ | .nop => none

/-- The `rt` field, where there is one. -/
def rtOf : Instr → Option RegIdx
  | .add _ _ rt | .sub _ _ rt | .mul _ _ rt | .lw _ rt _ | .sw _ rt _ | .beq _ rt _ => some rt
  | .j _ | .nop => none

/-- `rd(I)`, defined only when `isR(I)` (30_encoding.md R96). -/
def rdOf : Instr → Option RegIdx
  | .add rd _ _ | .sub rd _ _ | .mul rd _ _ => some rd
  | .lw _ _ _ | .sw _ _ _ | .beq _ _ _ | .j _ | .nop => none

/-- The destination `rt` of a load (30_encoding.md R93). -/
def loadDestOf : Instr → Option RegIdx
  | .lw _ rt _ => some rt
  | .add _ _ _ | .sub _ _ _ | .mul _ _ _ | .sw _ _ _ | .beq _ _ _ | .j _ | .nop => none

/-- "Reads (as rs or rt)": has that register number in its `rs` or `rt` field, whatever the field's role
(42_hazard_detector.md R193, 92 D15). -/
def namesReg (i : Instr) (r : RegIdx) : Bool := rsOf i == some r || rtOf i == some r

/-- `x[r]` (00_scope.md R10). -/
def readReg (s : State) (r : RegIdx) : Word := s.regs[r.val]

/-- The cached value of a register field: the register's value now, or 0 where the instruction has no such field
(40_engine_step.md R160, R162). -/
def readField (s : State) : Option RegIdx → Word
  | some r => readReg s r
  | none   => 0

/-- The ID payload of an instruction, its operands read from the register file now (40_engine_step.md R160). -/
def captureOperands (i : Instr) (s : State) : IdPayload :=
  { instr := i, rsValue := readField s (rsOf i), rtValue := readField s (rtOf i) }

/-- The effective address of `lw` and `sw`: `signed(x[rs]) + offset`, a mathematical integer, from the register file
as it stands (20_memory.md R63, 45_loadstore.md R220, R221). -/
def effectiveAddr (s : State) (rs : RegIdx) (offset : Int) : Int := signed (readReg s rs) + offset

/-- The target of a `beq` at byte address `b` (46_control.md R230): a displacement from `b` under `PredictVerify`, an
absolute instruction index under `ResolveInDecode`; modulo 2^32. -/
def beqTarget (policy : CtrlPolicy) (b : Word) (offset : Int) : Word :=
  match policy with
  | .predictVerify   => b + wrap32 (4 * offset)
  | .resolveInDecode => wrap32 (4 * offset)

/-- The target of a `j`: `4*target`, the whole of `pc` (46_control.md R235). -/
def jTarget (target : Nat) : Word := wrap32 (4 * (target : Int))

end Sys2Proof.Machine
end

