-- ==== Sys2Proof/Machine/Ops.lean ====
section
/-! DEFINITION. The named operations over registers, memory, `pc` and the slots, and the four phases through which an
instruction's arms act. The machine takes no exception and returns from none (60_exceptions.md R290, R295), so there
is no such operation. -/

namespace Sys2Proof.Machine

/-! ### Registers, `pc`, memory -/

/-- `x[r] <- v` (00_scope.md R10); `r = 0` included (10_state.md R22). -/
def writeReg (r : RegIdx) (v : Word) (s : State) : State := { s with regs := s.regs.set r.val v }

/-- Write no register (45_loadstore.md R222, 46_control.md R238, 47_nop.md R251). -/
def writeNothing (_r : Word) (s : State) : State := s

/-- `pc <- t` (00_scope.md R10). -/
def setPc (t : Word) (s : State) : State := { s with pc := t }

/-- `pc <- pc + 4` modulo 2^32 (10_state.md R28, R29). -/
def advancePc (s : State) : State := setPc (s.pc + 4) s

/-- Squash: the IF slot's content is replaced by `NOP` (47_nop.md R256). -/
def squashIf (s : State) : State := { s with ifSlot := some .nop }

/-- `MemRead(a, 4)` when `ValidDAddr(a)`, else no value (00_scope.md R10, 20_memory.md R67, R68). -/
def dataRead (a : Int) (s : State) : Option Word :=
  if validDAddr a then some (s.mem.readWord a.toNat) else none

/-- `MemWrite(a, 4, v)` when `ValidDAddr(a)`, else nothing (00_scope.md R10, 20_memory.md R67, R68). -/
def dataWrite (a : Int) (v : Word) (s : State) : State :=
  if validDAddr a then { s with mem := s.mem.writeWord a.toNat v } else s

/-- Draw a fresh `UNSPEC32` (00_scope.md R10; 93 U1; assumption 4). -/
def drawUnspec (s : State) : Word × State := (Config.unspec32 s.draws, { s with draws := s.draws + 1 })

/-- `IFetch(a)` (20_memory.md R70). -/
def iFetch (s : State) (a : Word) : Option Instr := s.imem.fetch s.params a.toNat

/-! ### The arms of an instruction and the four phases -/

/-- What one instruction does in each of the four phases that consult it (40_engine_step.md section 9). -/
structure PhaseArms where
  /-- `Control`, in the ID phase, with the instruction in IF: writes `pc`, may squash IF, may touch `BP`. -/
  control   : State → State
  /-- `ExResult`, in the EX phase, on the ID payload's `rsValue` and `rtValue`. -/
  exResult  : Word → Word → Word
  /-- `MemAccess`, in the MEM phase, on the EX payload's result: the MEM payload's result and the state after. -/
  memAccess : Word → State → Word × State
  /-- `WbWrite`, in the WB phase, on the MEM payload's result. -/
  wbWrite   : Word → State → State

/-- "Other opcodes pass `result` through unchanged"; no memory access (40_engine_step.md R153). -/
def passThrough (r : Word) (s : State) : Word × State := (r, s)

/-- The ID phase of the instruction `i` in IF (40_engine_step.md R160): `Control`, then what IF holds moves to ID with
its registers read now, and IF is cleared. -/
def idPhase (i : Instr) (control : State → State) (s : State) : State :=
  let s1 := control { s with ifSlot := some i }
  { s1 with idSlot := some (captureOperands (s1.ifSlot.getD i) s1), ifSlot := none }

/-- The EX phase of the instruction `i` in ID (40_engine_step.md R156, R157). -/
def exPhase (i : Instr) (exResult : Word → Word → Word) (s : State) : State :=
  match s.idSlot with
  | none   => s
  | some p => { s with exSlot := some { instr := i, result := exResult p.rsValue p.rtValue }, idSlot := none }

/-- The MEM phase of the instruction `i` in EX (40_engine_step.md R153, R154). -/
def memPhase (i : Instr) (memAccess : Word → State → Word × State) (s : State) : State :=
  match s.exSlot with
  | none   => s
  | some p =>
    let (r, s1) := memAccess p.result s
    { s1 with memSlot := some { instr := i, result := r }, exSlot := none }

/-- The WB phase of the instruction `i` in MEM (40_engine_step.md R150). -/
def wbPhase (i : Instr) (wbWrite : Word → State → State) (s : State) : State :=
  match s.memSlot with
  | none   => s
  | some p =>
    let s1 := wbWrite p.result s
    { s1 with wbSlot := some { instr := i, result := p.result }, memSlot := none }

/-- What instruction `i` with these arms does in the phase the state names. A phase whose slot is empty does nothing
(47_nop.md R255; DESIGN CHOICE for `exec` called on its own, assumption 8; safe). -/
def actArms (i : Instr) (arms : PhaseArms) (s : State) : State :=
  match s.stage with
  | .wb  => wbPhase i arms.wbWrite s
  | .mem => memPhase i arms.memAccess s
  | .ex  => exPhase i arms.exResult s
  | .id  => idPhase i arms.control s

/-- An instruction acts and the machine goes on: no phase stops (40_engine_step.md R140, 60_exceptions.md R290). -/
def runArms (i : Instr) (arms : PhaseArms) (s : State) : Host.Outcome State Fault Refusal := .next (actArms i arms s)

end Sys2Proof.Machine
end

