-- ==== Sys2Proof/Machine/Arith.lean ====
section
/-! DEFINITION. `add`, `sub`, `mul` (44_arith.md). -/

namespace Sys2Proof.Machine

/-- `ExResult(add ..) = wrap32(signed(a) + signed(b))` (44_arith.md R210). -/
def addResult (a b : Word) : Word := wrap32 (signed a + signed b)

/-- `ExResult(sub ..) = wrap32(signed(a) - signed(b))` (44_arith.md R211). -/
def subResult (a b : Word) : Word := wrap32 (signed a - signed b)

/-- `ExResult(mul ..) = wrap32(signed(a) * signed(b))` (44_arith.md R212). -/
def mulResult (a b : Word) : Word := wrap32 (signed a * signed b)

/-- The arms the three R-type instructions share (44_arith.md R213, R214, R215) around their own `ExResult`. -/
def rTypeArms (rd : RegIdx) (exResult : Word → Word → Word) : PhaseArms :=
  { control := advancePc, exResult := exResult, memAccess := passThrough, wbWrite := writeReg rd }

/-- `add rd, rs, rt` (44_arith.md R210). -/
def execAdd (rd rs rt : RegIdx) (s : State) : Host.Outcome State Fault Refusal :=
  runArms (.add rd rs rt) (rTypeArms rd addResult) s

/-- `sub rd, rs, rt` (44_arith.md R211). -/
def execSub (rd rs rt : RegIdx) (s : State) : Host.Outcome State Fault Refusal :=
  runArms (.sub rd rs rt) (rTypeArms rd subResult) s

/-- `mul rd, rs, rt` (44_arith.md R212). -/
def execMul (rd rs rt : RegIdx) (s : State) : Host.Outcome State Fault Refusal :=
  runArms (.mul rd rs rt) (rTypeArms rd mulResult) s

end Sys2Proof.Machine
end

