-- ==== Sys2Proof/Machine/LoadStore.lean ====
section
/-! DEFINITION. `lw`, `sw` (45_loadstore.md). -/

namespace Sys2Proof.Machine

/-- `ExResult` of an instruction that computes nothing in EX (45_loadstore.md R223, 46_control.md R236, 47_nop.md R251;
92 D12). -/
def noResult (_a _b : Word) : Word := 0

/-- `MemAccess(lw ..)`: the word at a valid address, `UNSPEC32` otherwise; the incoming result is discarded
(45_loadstore.md R220). -/
def loadWordAccess (rs : RegIdx) (offset : Int) (_r : Word) (s : State) : Word × State :=
  match dataRead (effectiveAddr s rs offset) s with
  | some v => (v, s)
  | none   => drawUnspec s

/-- `MemAccess(sw ..)`: `x[rt]` to a valid address, nothing otherwise; the result passes through (45_loadstore.md
R221). -/
def storeWordAccess (rs rt : RegIdx) (offset : Int) (r : Word) (s : State) : Word × State :=
  (r, dataWrite (effectiveAddr s rs offset) (readReg s rt) s)

/-- `lw rt, offset(rs)` (45_loadstore.md R220, R222, R223, R224). -/
def execLw (rs rt : RegIdx) (offset : Int) (s : State) : Host.Outcome State Fault Refusal :=
  runArms (.lw rs rt offset)
    { control := advancePc, exResult := noResult, memAccess := loadWordAccess rs offset, wbWrite := writeReg rt } s

/-- `sw rt, offset(rs)` (45_loadstore.md R221, R222, R223, R224). -/
def execSw (rs rt : RegIdx) (offset : Int) (s : State) : Host.Outcome State Fault Refusal :=
  runArms (.sw rs rt offset)
    { control := advancePc, exResult := noResult, memAccess := storeWordAccess rs rt offset, wbWrite := writeNothing } s

end Sys2Proof.Machine
end

