-- ==== Sys2Proof/Machine/Predictor.lean ====
section
/-! DEFINITION. The Branch Predictor (43_branch_predictor.md). -/

namespace Sys2Proof.Machine

/-- `BP_INIT`, the counter of a lazily created entry: weakly-not-taken (00_scope.md R7, 10_state.md R37). -/
def bpInit : Counter := 1

/-- The lazy initialisation of an unseen address (43_branch_predictor.md R201). -/
def bpEnsure (a : Nat) (t : PredTable) : PredTable :=
  match lookupAt t a with
  | some _ => t
  | none   => insertAt a bpInit t

/-- The counter an address counts as: its entry, or the initial value where it has none. -/
def bpCounter (a : Nat) (t : PredTable) : Counter := (lookupAt t a).getD bpInit

/-- The threshold: taken when the counter is at least 2 (43_branch_predictor.md R201). -/
def counterTaken (c : Counter) : Bool := decide (2 ≤ c.val)

/-- Saturating increment toward 3 (43_branch_predictor.md R202). -/
def counterUp (c : Counter) : Counter := ⟨min 3 (c.val + 1), by omega⟩

/-- Saturating decrement toward 0 (43_branch_predictor.md R202). -/
def counterDown (c : Counter) : Counter := ⟨c.val - 1, by omega⟩

/-- The counter after an observed outcome (43_branch_predictor.md R202, R203). -/
def counterNext (taken : Bool) (c : Counter) : Counter := if taken then counterUp c else counterDown c

/-- `predict(addr)`: the prediction, and the table after the lazy initialisation (43_branch_predictor.md R201). -/
def predict (a : Nat) (t : PredTable) : Bool × PredTable :=
  let t1 := bpEnsure a t
  (counterTaken (bpCounter a t1), t1)

/-- `update(addr, actualTaken)` (43_branch_predictor.md R202). -/
def update (a : Nat) (taken : Bool) (t : PredTable) : PredTable :=
  let t1 := bpEnsure a t
  insertAt a (counterNext taken (bpCounter a t1)) t1

end Sys2Proof.Machine
end

