-- ==== Sys2Proof/Machine/Control.lean ====
section
/-! DEFINITION. `beq`, `j` (46_control.md). -/

namespace Sys2Proof.Machine

/-- The branch condition: all 32 bits equal, on the register file in the ID phase (46_control.md R230, R241). -/
def beqTaken (rs rt : RegIdx) (s : State) : Bool := readReg s rs == readReg s rt

/-- `Control(beq ..)` under `PredictVerify` (46_control.md R231): predict, resolve, update; on a misprediction squash
and redirect, else go on at `b + 4`, also when the branch was rightly predicted taken (R232). -/
def beqPredictVerify (rs rt : RegIdx) (offset : Int) (s : State) : State :=
  let b         := s.pc
  let predicted := predict b.toNat s.bp
  let actual    := beqTaken rs rt s
  let s1        := { s with bp := update b.toNat actual predicted.2 }
  if predicted.1 ≠ actual then
    if actual then setPc (beqTarget .predictVerify b offset) (squashIf s1)
    else setPc (b + 4) (squashIf s1)
  else setPc (b + 4) s1

/-- `Control(beq ..)` under `ResolveInDecode` (46_control.md R233): always squashed, `BP` untouched. -/
def beqResolveInDecode (rs rt : RegIdx) (offset : Int) (s : State) : State :=
  if beqTaken rs rt s then squashIf (setPc (beqTarget .resolveInDecode s.pc offset) s)
  else squashIf (setPc (s.pc + 4) s)

/-- `Control(beq ..)` under the policy in force (46_control.md R230). -/
def beqControl (rs rt : RegIdx) (offset : Int) (s : State) : State :=
  match s.params.ctrlPolicy with
  | .predictVerify   => beqPredictVerify rs rt offset s
  | .resolveInDecode => beqResolveInDecode rs rt offset s

/-- `ExResult(beq ..)`: 1 if the cached values are equal, else 0; it decides nothing (46_control.md R236, 92 D13). -/
def beqResult (a b : Word) : Word := if a = b then 1 else 0

/-- `Control(j ..)`: squash IF, `pc <- 4*target` (46_control.md R235). -/
def jControl (target : Nat) (s : State) : State := setPc (jTarget target) (squashIf s)

/-- `beq rs, rt, offset` (46_control.md R230, R236, R237, R238). -/
def execBeq (rs rt : RegIdx) (offset : Int) (s : State) : Host.Outcome State Fault Refusal :=
  runArms (.beq rs rt offset)
    { control := beqControl rs rt offset, exResult := beqResult, memAccess := passThrough, wbWrite := writeNothing } s

/-- `j target` (46_control.md R235, R236, R237, R238). -/
def execJ (target : Nat) (s : State) : Host.Outcome State Fault Refusal :=
  runArms (.j target)
    { control := jControl target, exResult := noResult, memAccess := passThrough, wbWrite := writeNothing } s

end Sys2Proof.Machine
end

