-- ==== Sys2Proof/Machine/Nop.lean ====
section
/-! DEFINITION. `nop` (47_nop.md). -/

namespace Sys2Proof.Machine

/-- `nop` (47_nop.md R250, R251, R252). -/
def execNop (s : State) : Host.Outcome State Fault Refusal :=
  runArms .nop
    { control := advancePc, exResult := noResult, memAccess := passThrough, wbWrite := writeNothing } s

end Sys2Proof.Machine
end

