-- ==== Sys2Proof/Machine/Dispatch.lean ====
section
/-! DEFINITION. One arm per instruction: what the instruction does in the phase the state names (State.stage). -/

namespace Sys2Proof.Machine

def exec (i : Instr) (s : State) : Host.Outcome State Fault Refusal :=
  match i with
  | .add rd rs rt => Sys2Proof.Machine.execAdd rd rs rt s
  | .sub rd rs rt => Sys2Proof.Machine.execSub rd rs rt s
  | .mul rd rs rt => Sys2Proof.Machine.execMul rd rs rt s
  | .lw rs rt offset => Sys2Proof.Machine.execLw rs rt offset s
  | .sw rs rt offset => Sys2Proof.Machine.execSw rs rt offset s
  | .beq rs rt offset => Sys2Proof.Machine.execBeq rs rt offset s
  | .j target => Sys2Proof.Machine.execJ target s
  | .nop => Sys2Proof.Machine.execNop s

end Sys2Proof.Machine
end

