-- ==== Sys2Proof/Machine/Flags.lean ====
section
/-! DEFINITION. The machine has no condition codes (10_state.md R39); its one flag is `stalled`, computed by the Hazard
Detector (42_hazard_detector.md). The detector reads only which instructions sit in IF, ID, EX, MEM. -/

namespace Sys2Proof.Machine

/-- Structural hazard, memory port: a load or store in MEM and another in IF (42_hazard_detector.md R190). -/
def memoryPortHazard (s : State) : Bool :=
  match s.memSlot, s.ifSlot with
  | some m, some i => isMemOp m.instr && isMemOp i
  | _, _ => false

/-- Structural hazard, multiplier: a `mul` in EX and another in ID (42_hazard_detector.md R191). -/
def multiplierHazard (s : State) : Bool :=
  match s.exSlot, s.idSlot with
  | some e, some d => isMul e.instr && isMul d.instr
  | _, _ => false

/-- The disjunction of the two structural checks (42_hazard_detector.md R195). -/
def structuralHazard (s : State) : Bool := memoryPortHazard s || multiplierHazard s

/-- Data hazard, R-type producer: ID names the `rd` of an R-type in EX (42_hazard_detector.md R192). -/
def rTypeDataHazard (s : State) : Bool :=
  match s.exSlot, s.idSlot with
  | some e, some d =>
    (match rdOf e.instr with
     | some rd => namesReg d.instr rd
     | none    => false)
  | _, _ => false

/-- Data hazard, load producer: ID names the `rt` of a `lw` in EX (42_hazard_detector.md R193). -/
def loadDataHazard (s : State) : Bool :=
  match s.exSlot, s.idSlot with
  | some e, some d =>
    (match loadDestOf e.instr with
     | some rt => namesReg d.instr rt
     | none    => false)
  | _, _ => false

/-- The disjunction of the two data checks (42_hazard_detector.md R195). -/
def dataHazard (s : State) : Bool := rTypeDataHazard s || loadDataHazard s

/-- Control hazard: a `beq` or `j` in ID (42_hazard_detector.md R194). -/
def controlHazard (s : State) : Bool :=
  match s.idSlot with
  | some d => isCtrl d.instr
  | none   => false

/-- The Hazard Detector's result (42_hazard_detector.md R195, R197). -/
def hazardDetected (s : State) : Bool := structuralHazard s || dataHazard s || controlHazard s

/-- HazardPhase: `stalled` takes the detector's result (42_hazard_detector.md R195). -/
def hazardPhase (s : State) : State := { s with stalled := hazardDetected s }

end Sys2Proof.Machine
end

