-- ==== Sys2Proof/Machine/Forwarding.lean ====
section
/-! DEFINITION. The Forwarding Unit (41_forwarding.md). -/

namespace Sys2Proof.Machine

/-- Forwarding from one source slot into the ID payload: an R-type in the slot overwrites each cached value whose field
has its `rd` (41_forwarding.md R180, R181, R182, R184). The two fields are tested independently. -/
def forwardFrom (source : Option Payload) (d : IdPayload) : IdPayload :=
  match source with
  | none => d
  | some p =>
    match rdOf p.instr with
    | none => d
    | some rd =>
      { d with
        rsValue := if rsOf d.instr = some rd then p.result else d.rsValue
        rtValue := if rtOf d.instr = some rd then p.result else d.rtValue }

/-- ForwardingPhase: the MEM source first, the EX source second, so that EX wins (41_forwarding.md R180, R183). -/
def forwardingPhase (s : State) : State :=
  match s.idSlot with
  | none   => s
  | some d => { s with idSlot := some (forwardFrom s.exSlot (forwardFrom s.memSlot d)) }

end Sys2Proof.Machine
end

