-- ==== Sys2Proof/Machine/Engine.lean ====
section
/-! DEFINITION. The step: phase order (40_engine_step.md R141), the IF phase and the bookkeeping, and how an instruction
word is placed to be run next. -/

namespace Sys2Proof.Machine

/-- Go on from a next state; a stop stays a stop. -/
def andThen (o : Host.Outcome State Fault Refusal) (f : State → Host.Outcome State Fault Refusal) :
    Host.Outcome State Fault Refusal :=
  match o with
  | .next s    => f s
  | .fault r   => .fault r
  | .refused r => .refused r

/-- The instruction a phase acts on: the one in its predecessor's slot (40_engine_step.md R150, R153, R156, R160). -/
def stageInstr (st : Stage) (s : State) : Option Instr :=
  match st with
  | .wb  => s.memSlot.map (·.instr)
  | .mem => s.exSlot.map (·.instr)
  | .ex  => s.idSlot.map (·.instr)
  | .id  => s.ifSlot

/-- One of the phases WB, MEM, EX, ID: the instruction in the slot it consumes acts; an empty slot is skipped
(47_nop.md R255). -/
def runStage (st : Stage) (s : State) : Host.Outcome State Fault Refusal :=
  match stageInstr st s with
  | some i => exec i { s with stage := st }
  | none   => .next { s with stage := st }

/-- The IF phase: unless `stalled`, fetch the instruction at `pc`; a hole leaves IF empty (40_engine_step.md R165,
R166). -/
def ifPhase (s : State) : State :=
  if s.stalled then s else { s with ifSlot := iFetch s s.pc }

/-- `cycle <- cycle + 1` (40_engine_step.md R168). -/
def tick (s : State) : State := { s with cycle := s.cycle + 1 }

/-- The transition of 40_engine_step.md R141: forwarding, hazard detection, WB, MEM, EX, ID, IF, bookkeeping, each
phase on the state the phases before it left (R142). -/
def engineStep (s : State) : Host.Outcome State Fault Refusal :=
  andThen (runStage .wb (hazardPhase (forwardingPhase s))) fun s1 =>
  andThen (runStage .mem s1) fun s2 =>
  andThen (runStage .ex s2) fun s3 =>
  andThen (runStage .id s3) fun s4 =>
  .next (tick (ifPhase s4))

/-- The state with an instruction word stored at `pc` and fetched: the store holds its instruction at `pc`, and so does
IF, as a Load of the word and the IF phase of a step leave it; a word that decodes to nothing leaves a hole and an
empty IF slot (50_host_interface.md R265, 40_engine_step.md R165; assumption 6). The next step's ID phase runs it. -/
def placeFetched (o : Option Instr) (s : State) : State :=
  match o with
  | some i => { s with imem := s.imem.put s.params s.pc.toNat (some i), ifSlot := some i }
  | none   => { s with imem := s.imem.put s.params s.pc.toNat none, ifSlot := none }

end Sys2Proof.Machine
end

