-- ==== Sys2Proof/Machine/Step.lean ====
section
/-! DEFINITION. The machine's step: one cycle of the Pipeline Engine (40_engine_step.md R140). -/

namespace Sys2Proof.Machine

/-- One step is one cycle (40_engine_step.md R140, R141). -/
def step (s : State) : Host.Outcome State Fault Refusal := engineStep s

/-- The state whose very next step runs the instruction of this word (assumption 6). -/
def State.withFetchWord (s : State) (nbits w : Nat) : State := placeFetched (decodeTableWord nbits w) s

end Sys2Proof.Machine
end

