-- ==== Sys2Proof/Machine/Assembler.lean ====
section
/-! DEFINITION. The Program Loader's assembler (30_encoding.md Part 3). It is software around the hardware (00_scope.md
R4); the host's Load of source text ends in the store operation of Machine/HostInterface.lean. Texts are lists of
characters. Lexical corners that R129 leaves open are assumption 12 (DESIGN CHOICE). -/

namespace Sys2Proof.Machine

/-! ### Lines, comments, labels (30_encoding.md R120, R121, R129) -/

/-- Split a text at every occurrence of a separator. -/
def splitAtChar (sep : Char) : List Char → List (List Char)
  | [] => [[]]
  | c :: cs =>
    if c = sep then [] :: splitAtChar sep cs
    else match splitAtChar sep cs with
      | l :: ls => (c :: l) :: ls
      | []      => [[c]]

/-- A blank: space, tab, or the carriage return of a line end. -/
def isBlankChar (c : Char) : Bool := c == ' ' || c == '\t' || c == '\r'

/-- Trim the blanks at both ends. -/
def trimBlanks (l : List Char) : List Char :=
  ((l.dropWhile isBlankChar).reverse.dropWhile isBlankChar).reverse

/-- Strip a comment: everything from `#` on. -/
def stripComment (l : List Char) : List Char := l.takeWhile (· ≠ '#')

/-- A letter or underscore: what a label begins with. -/
def isLabelStart (c : Char) : Bool := c.isAlpha || c == '_'

/-- What a label goes on with. -/
def isLabelChar (c : Char) : Bool := isLabelStart c || c.isDigit

/-- A label: a letter or underscore followed by letters, digits or underscores (30_encoding.md R129). -/
def isLabelName : List Char → Bool
  | []      => false
  | c :: cs => isLabelStart c && cs.all isLabelChar

/-- A source line after comment and blanks are stripped: an optional label and the rest. -/
structure SourceLine where
  label : Option (List Char)
  text  : List Char
  deriving DecidableEq, Repr

/-- The optional `label:` prefix of a line, and the rest, trimmed (30_encoding.md R120, R121). -/
def readLine (raw : List Char) : SourceLine :=
  let l := trimBlanks (stripComment raw)
  let name := l.takeWhile isLabelChar
  match l.dropWhile isLabelChar with
  | ':' :: rest => if isLabelName name then { label := some name, text := trimBlanks rest }
                   else { label := none, text := l }
  | _ => { label := none, text := l }

/-- The address after a line: a line whose remaining text is non-empty consumes 4 bytes (30_encoding.md R121). -/
def addressAfter (a : Nat) (line : SourceLine) : Nat := if line.text.isEmpty then a else a + 4

/-- Pass 1: each label with its byte address, in source order (30_encoding.md R121). -/
def collectLabels : Nat → List SourceLine → List (List Char × Nat)
  | _, [] => []
  | a, line :: lines =>
    (match line.label with
     | some name => [(name, a)]
     | none      => []) ++ collectLabels (addressAfter a line) lines

/-- A label's byte address; a label defined twice is bound to its last definition (30_encoding.md R129). -/
def labelAddress (table : List (List Char × Nat)) (name : List Char) : Option Nat :=
  (table.reverse.find? fun e => e.1 = name).map (·.2)

/-! ### Operands (30_encoding.md R124 to R127, R129) -/

/-- Decimal digits. -/
def parseNat (l : List Char) : Option Nat :=
  if !l.isEmpty && l.all Char.isDigit then some (l.foldl (fun n c => 10 * n + (c.toNat - 48)) 0) else none

/-- An optional `-` followed by decimal digits (30_encoding.md R129). -/
def parseInt : List Char → Option Int
  | '-' :: ds => (parseNat ds).map fun n => -(n : Int)
  | ds        => (parseNat ds).map fun n => (n : Int)

/-- A register token `$sN`, N in 0..31; no other alias exists (10_state.md R21, 30_encoding.md R127). -/
def parseReg : List Char → Option RegIdx
  | '$' :: 's' :: ds =>
    match parseNat ds with
    | some n => if h : n < 32 then some ⟨n, h⟩ else none
    | none   => none
  | _ => none

/-- The operands of a line: comma-separated, with optional surrounding blanks (30_encoding.md R129). -/
def parseOperands (l : List Char) : List (List Char) :=
  if l.isEmpty then [] else (splitAtChar ',' l).map trimBlanks

/-- `offset(rs)`, the offset a literal integer only (30_encoding.md R124, R126). -/
def parseMemOperand (l : List Char) : Option (Int × RegIdx) :=
  match l.dropWhile (· ≠ '(') with
  | '(' :: rest =>
    if rest.getLast? = some ')' then
      match parseInt (l.takeWhile (· ≠ '(')), parseReg rest.dropLast with
      | some offset, some rs => some (offset, rs)
      | _, _ => none
    else none
  | _ => none

/-- A `beq` operand at instruction index `b`: a label gives its absolute index under `ResolveInDecode`, its index minus
`b` under `PredictVerify`; otherwise a literal integer, as written (30_encoding.md R125). -/
def parseBeqTarget (policy : CtrlPolicy) (table : List (List Char × Nat)) (b : Nat) (l : List Char) : Option Int :=
  match labelAddress table l with
  | some a =>
    (match policy with
     | .resolveInDecode => some (a / 4 : Nat)
     | .predictVerify   => some (((a / 4 : Nat) : Int) - b))
  | none => parseInt l

/-- A `j` operand: a label's absolute index, or a literal integer (30_encoding.md R125); a negative one is out of range
(R97). -/
def parseJTarget (table : List (List Char × Nat)) (l : List Char) : Option Nat :=
  match labelAddress table l with
  | some a => some (a / 4)
  | none =>
    match parseInt l with
    | some n => if 0 ≤ n then some n.toNat else none
    | none   => none

/-- `op rd, rs, rt` (30_encoding.md R124). -/
def parseRType (build : RegIdx → RegIdx → RegIdx → Instr) : List (List Char) → Option Instr
  | [d, s, t] =>
    match parseReg d, parseReg s, parseReg t with
    | some rd, some rs, some rt => some (build rd rs rt)
    | _, _, _ => none
  | _ => none

/-- `op rt, offset(rs)` (30_encoding.md R124). -/
def parseMemType (build : RegIdx → RegIdx → Int → Instr) : List (List Char) → Option Instr
  | [t, m] =>
    match parseReg t, parseMemOperand m with
    | some rt, some (offset, rs) => some (build rs rt offset)
    | _, _ => none
  | _ => none

/-- `beq rs, rt, label-or-integer` (30_encoding.md R124). -/
def parseBeq (policy : CtrlPolicy) (table : List (List Char × Nat)) (b : Nat) : List (List Char) → Option Instr
  | [s, t, l] =>
    match parseReg s, parseReg t, parseBeqTarget policy table b l with
    | some rs, some rt, some offset => some (.beq rs rt offset)
    | _, _, _ => none
  | _ => none

/-- `j label-or-integer` (30_encoding.md R124). -/
def parseJ (table : List (List Char × Nat)) : List (List Char) → Option Instr
  | [l] => (parseJTarget table l).map .j
  | _   => none

/-- `nop`, no operands (30_encoding.md R124). -/
def parseNop : List (List Char) → Option Instr
  | [] => some .nop
  | _  => none

/-- The opcode-specific parser of a mnemonic; an unknown mnemonic is rejected (30_encoding.md R123, R127, R129). -/
def parseByMnemonic (policy : CtrlPolicy) (table : List (List Char × Nat)) (b : Nat) (mnemonic : List Char)
    (operands : List (List Char)) : Option Instr :=
  match mnemonic with
  | ['a', 'd', 'd'] => parseRType .add operands
  | ['s', 'u', 'b'] => parseRType .sub operands
  | ['m', 'u', 'l'] => parseRType .mul operands
  | ['l', 'w']      => parseMemType .lw operands
  | ['s', 'w']      => parseMemType .sw operands
  | ['b', 'e', 'q'] => parseBeq policy table b operands
  | ['j']           => parseJ table operands
  | ['n', 'o', 'p'] => parseNop operands
  | _ => none

/-- The instruction of a line's text at instruction index `b`, or its rejection; fields outside the ranges of R97 are
rejected too (30_encoding.md R123, R127). -/
def parseInstr (policy : CtrlPolicy) (table : List (List Char × Nat)) (b : Nat) (text : List Char) : Option Instr :=
  match parseByMnemonic policy table b (text.takeWhile fun c => !isBlankChar c)
      (parseOperands (trimBlanks (text.dropWhile fun c => !isBlankChar c))) with
  | some i => if i.wf then some i else none
  | none   => none

/-! ### The two passes (30_encoding.md R121 to R123, R127) -/

/-- What the assembler hands to Load: each accepted instruction with its byte address, and the source lines rejected,
counted from 0 (30_encoding.md R122, R127). -/
structure Assembly where
  entries  : List (Nat × Instr)
  rejected : List Nat
  deriving DecidableEq, Repr

/-- Pass 2: translate from byte address `a`, source line number `n` (30_encoding.md R123, R127). -/
def translateLines (policy : CtrlPolicy) (table : List (List Char × Nat)) : Nat → Nat → List SourceLine → Assembly
  | _, _, [] => { entries := [], rejected := [] }
  | a, n, line :: lines =>
    let rest := translateLines policy table (addressAfter a line) (n + 1) lines
    if line.text.isEmpty then rest
    else match parseInstr policy table (a / 4) line.text with
      | some i => { rest with entries := (a, i) :: rest.entries }
      | none   => { rest with rejected := n :: rest.rejected }

/-- Assemble a source text (30_encoding.md R120 to R129). -/
def assemble (policy : CtrlPolicy) (source : List Char) : Assembly :=
  let lines := (splitAtChar '\n' source).map readLine
  translateLines policy (collectLabels 0 lines) 0 0 lines

/-! ### Canonical text (30_encoding.md R131) -/

/-- A natural number in decimal. -/
def renderNat (n : Nat) : List Char := Nat.toDigits 10 n

/-- A signed integer in decimal. -/
def renderInt (n : Int) : List Char := if n < 0 then '-' :: renderNat n.natAbs else renderNat n.natAbs

/-- A register token. -/
def renderReg (r : RegIdx) : List Char := '$' :: 's' :: renderNat r.val

/-- The separator of operands. -/
def renderComma : List Char := [',', ' ']

/-- `op rd, rs, rt`. -/
def renderRType (op : List Char) (rd rs rt : RegIdx) : List Char :=
  op ++ [' '] ++ renderReg rd ++ renderComma ++ renderReg rs ++ renderComma ++ renderReg rt

/-- `op rt, offset(rs)`. -/
def renderMemType (op : List Char) (rs rt : RegIdx) (offset : Int) : List Char :=
  op ++ [' '] ++ renderReg rt ++ renderComma ++ renderInt offset ++ ['('] ++ renderReg rs ++ [')']

/-- `render()`, the canonical text of an Instruction; no display label is kept (30_encoding.md R95, R131). -/
def render : Instr → List Char
  | .add rd rs rt     => renderRType ['a', 'd', 'd'] rd rs rt
  | .sub rd rs rt     => renderRType ['s', 'u', 'b'] rd rs rt
  | .mul rd rs rt     => renderRType ['m', 'u', 'l'] rd rs rt
  | .lw rs rt offset  => renderMemType ['l', 'w'] rs rt offset
  | .sw rs rt offset  => renderMemType ['s', 'w'] rs rt offset
  | .beq rs rt offset =>
    ['b', 'e', 'q', ' '] ++ renderReg rs ++ renderComma ++ renderReg rt ++ renderComma ++ renderInt offset
  | .j target         => ['j', ' '] ++ renderNat target
  | .nop              => ['n', 'o', 'p']

end Sys2Proof.Machine
end

