-- ==== Sys2Proof/Machine/HostInterface.lean ====
section
/-! DEFINITION. The host interface (50_host_interface.md): Load, Inject, Step, Reset, Inspect, and the port-level
commands. Every operation is one function of the state, so none overlaps a step (R261). -/

namespace Sys2Proof.Machine

/-! ### Reset (50_host_interface.md R272) -/

/-- Reset: every item takes its value of 10_state.md R45. The parameters are the hardware's and stay; `draws` stays, so
that a value drawn after a Reset is a fresh one (DESIGN CHOICE, assumption 5; safe). -/
def hostReset (s : State) : State := { State.resetWith s.params with draws := s.draws }

/-! ### Load (50_host_interface.md R262 to R265) -/

/-- `LOAD_CLEAR`: the store is emptied and `pc` is 0; nothing else changes (R262, R263, R280). -/
def loadClear (s : State) : State := { s with imem := [], pc := 0 }

/-- Load one Instruction at a byte address. -/
def loadInstr (a : Nat) (i : Instr) (s : State) : State := { s with imem := s.imem.put s.params a (some i) }

/-- `LOAD_WORD`: a word that decodes is stored at a storable address; otherwise the address is a hole (R265). -/
def loadWord (addr word : Word) (s : State) : State :=
  { s with imem := s.imem.put s.params addr.toNat (decode word) }

/-- Load a program given as a finite map from byte addresses to Instructions: clear, then store each (R262). -/
def loadProgram (program : List (Nat × Instr)) (s : State) : State :=
  program.foldl (fun t e => loadInstr e.1 e.2 t) (loadClear s)

/-- Load a program given as words: `LOAD_CLEAR`, then one `LOAD_WORD` each (R265, R280). -/
def loadWords (program : List (Word × Word)) (s : State) : State :=
  program.foldl (fun t e => loadWord e.1 e.2 t) (loadClear s)

/-- What a Load of source text reports (R264): whether at least one instruction was accepted, and the rejected lines. -/
structure LoadReport where
  accepted : Bool
  rejected : List Nat
  deriving DecidableEq, Repr

/-- Load source text: assemble it for the policy in force and load the result (R262, R264; 30_encoding.md R125, R128).
With no accepted instruction the store is left empty and the report says so. -/
def loadSource (source : List Char) (s : State) : State × LoadReport :=
  let asm := assemble s.params.ctrlPolicy source
  (loadProgram asm.entries s, { accepted := !asm.entries.isEmpty, rejected := asm.rejected })

/-! ### Inject (50_host_interface.md R266 to R268)

Each write accessor answers the state after it and its outcome: true when it wrote, false when it was ignored (R275: "the
loader and accessors report outcomes (success flag, ...) to the caller"). -/

/-- Inject a register; an index outside 0..31 is ignored (R266, R275). -/
def pokeReg (idx : Nat) (v : Word) (s : State) : State × Bool :=
  if h : idx < 32 then (writeReg ⟨idx, h⟩ v s, true) else (s, false)

/-- Inject a register by its token; a token that is not `$sN` is ignored (R266, R275). -/
def pokeRegToken (token : List Char) (v : Word) (s : State) : State × Bool :=
  match parseReg token with
  | some r => (writeReg r v s, true)
  | none   => (s, false)

/-- Inject a memory word; an unaligned or out-of-range address is ignored (R267, R275). -/
def pokeMem (a : Int) (v : Word) (s : State) : State × Bool := (dataWrite a v s, validDAddr a)

/-! ### Inspect (50_host_interface.md R266, R267, R274, R281): reads only -/

/-- Read a register; an index outside 0..31 returns no value (R266). -/
def peekReg (idx : Nat) (s : State) : Option Word :=
  if h : idx < 32 then some (readReg s ⟨idx, h⟩) else none

/-- Read a memory word; an invalid address returns no value (R267). -/
def peekMem (a : Int) (s : State) : Option Word := dataRead a s

/-- Read a predictor entry: its counter, or absent; no entry is created (R274, R281). -/
def peekPredictor (a : Word) (s : State) : Option Counter := lookupAt s.bp a.toNat

/-- The full register file (R274). -/
def inspectRegisters (s : State) : List Word := s.regs.toList

/-- The full memory, word 0 to word 1023 (R274). -/
def inspectMemory (s : State) : List Word := (List.range 1024).map fun k => s.mem.readWord (4 * k)

/-- The current predictor table entries (R274). -/
def inspectPredictor (s : State) : List (Nat × Counter) := s.bp

/-- What a step publishes and the ports show: the five slots, `pc`, `cycle`, `stalled` (R270, R281). -/
structure Snapshot where
  ifSlot  : Option Instr
  idSlot  : Option IdPayload
  exSlot  : Option Payload
  memSlot : Option Payload
  wbSlot  : Option Payload
  pc      : Word
  cycle   : Nat
  stalled : Bool
  deriving DecidableEq, Repr

/-- The snapshot of a state (R270). -/
def snapshot (s : State) : Snapshot :=
  { ifSlot := s.ifSlot, idSlot := s.idSlot, exSlot := s.exSlot, memSlot := s.memSlot, wbSlot := s.wbSlot,
    pc := s.pc, cycle := s.cycle, stalled := s.stalled }

/-! ### Port-level commands (50_host_interface.md R280) -/

/-- The commands on the input `cmd`, with their operands. -/
inductive Command where
  | idle
  | step
  | reset
  | loadClear
  | loadWord (addr word : Word)
  | pokeReg (idx : Nat) (value : Word)
  | pokeMem (addr : Int) (value : Word)
  deriving DecidableEq, Repr

/-- One rising clock edge executes exactly one command, atomically (R280). The ports have no output for the outcome of a
write (R281), so the flag of R275 is dropped here. -/
def clockEdge (c : Command) (s : State) : Host.Outcome State Fault Refusal :=
  match c with
  | .idle => .next s
  | .step => step s
  | .reset => .next (hostReset s)
  | .loadClear => .next (loadClear s)
  | .loadWord addr word => .next (loadWord addr word s)
  | .pokeReg idx value => .next (pokeReg idx value s).1
  | .pokeMem addr value => .next (pokeMem addr value s).1

/-- A sequence of clock edges. -/
def clockEdges : List Command → State → Host.Outcome State Fault Refusal
  | [], s => .next s
  | c :: cs, s => andThen (clockEdge c s) (clockEdges cs)

end Sys2Proof.Machine
end

