-- ==== Sys2Proof/Machine/Sequential.lean ====
section
/-! DEFINITION. The sequential meaning of the instructions (30_encoding.md R91, 40_engine_step.md R174), and what is left
to do for the instructions in flight. The engine does not use this file; claims compare the engine with it. -/

namespace Sys2Proof.Machine

/-- Registers and data memory. -/
structure DataState where
  regs : Vector Word 32
  mem  : Memory
  deriving DecidableEq, Repr

/-- A register's value. -/
def DataState.reg (d : DataState) (r : RegIdx) : Word := d.regs[r.val]

/-- The data state with one register written. -/
def DataState.setReg (d : DataState) (r : RegIdx) (v : Word) : DataState := { d with regs := d.regs.set r.val v }

/-- The registers and memory of a machine state. -/
def dataOf (s : State) : DataState := { regs := s.regs, mem := s.mem }

/-- The one-line meanings of 30_encoding.md R91 on registers and memory. A `lw` with an invalid address has no
sequential meaning (40_engine_step.md R174 excludes it); it is written here as no change. -/
def seqData (i : Instr) (d : DataState) : DataState :=
  match i with
  | .add rd rs rt => d.setReg rd (addResult (d.reg rs) (d.reg rt))
  | .sub rd rs rt => d.setReg rd (subResult (d.reg rs) (d.reg rt))
  | .mul rd rs rt => d.setReg rd (mulResult (d.reg rs) (d.reg rt))
  | .lw rs rt offset =>
    let a := signed (d.reg rs) + offset
    if validDAddr a then d.setReg rt (d.mem.readWord a.toNat) else d
  | .sw rs rt offset =>
    let a := signed (d.reg rs) + offset
    if validDAddr a then { d with mem := d.mem.writeWord a.toNat (d.reg rt) } else d
  | .beq _ _ _ => d
  | .j _ => d
  | .nop => d

/-- The sequential successor of the instruction at byte address `pc`: a `beq` goes to its target exactly when its
registers are equal (30_encoding.md R91, 46_control.md R230). -/
def seqNextPc (policy : CtrlPolicy) (i : Instr) (d : DataState) (pc : Word) : Word :=
  match i with
  | .beq rs rt offset => if d.reg rs = d.reg rt then beqTarget policy pc offset else pc + 4
  | .j target => jTarget target
  | .add _ _ _ | .sub _ _ _ | .mul _ _ _ | .lw _ _ _ | .sw _ _ _ | .nop => pc + 4

/-- What is left to do for the instruction in MEM: the register write of an R-type or `lw`. -/
def finishMem (slot : Option Payload) (d : DataState) : DataState :=
  match slot with
  | none => d
  | some p =>
    match rdOf p.instr, loadDestOf p.instr with
    | some rd, _ => d.setReg rd p.result
    | none, some rt => d.setReg rt p.result
    | none, none => d

/-- What is left to do for the instruction in EX: an R-type has its result; a `lw` or `sw` has its access before it. -/
def finishEx (slot : Option Payload) (d : DataState) : DataState :=
  match slot with
  | none => d
  | some p =>
    match rdOf p.instr with
    | some rd => d.setReg rd p.result
    | none => seqData p.instr d

/-- What is left to do for the instruction in ID: all of it. -/
def finishId (slot : Option IdPayload) (d : DataState) : DataState :=
  match slot with
  | none => d
  | some p => seqData p.instr d

/-- The registers and memory once the instructions in MEM, EX and ID, oldest first, have had their sequential effect. -/
def completed (s : State) : DataState :=
  finishId s.idSlot (finishEx s.exSlot (finishMem s.memSlot (dataOf s)))

/-- The register an instruction writes, if it writes one (10_state.md R23). -/
def destOf (i : Instr) : Option RegIdx :=
  match rdOf i with
  | some rd => some rd
  | none => loadDestOf i

end Sys2Proof.Machine
end

