-- ==== Sys2Proof/Safety.lean ====
section
/-! DEFINITION. The terms claims use: the drained state, the invariants of the machine, and the spacing rules a program
must respect. -/

namespace Sys2Proof.Machine

/-- `drained`: IF, ID, EX and MEM are empty and `IFetch(pc)` is none (40_engine_step.md R173). -/
def drained (s : State) : Prop :=
  s.ifSlot = none ∧ s.idSlot = none ∧ s.exSlot = none ∧ s.memSlot = none ∧ iFetch s s.pc = none

/-- The instructions held in the five slots. -/
def slotInstrs (s : State) : List Instr :=
  s.ifSlot.toList ++ (s.idSlot.map (·.instr)).toList ++ (s.exSlot.map (·.instr)).toList
    ++ (s.memSlot.map (·.instr)).toList ++ (s.wbSlot.map (·.instr)).toList

/-- The instructions held in the slots after IF. -/
def slotInstrsAfterIf (s : State) : List Instr :=
  (s.idSlot.map (·.instr)).toList ++ (s.exSlot.map (·.instr)).toList
    ++ (s.memSlot.map (·.instr)).toList ++ (s.wbSlot.map (·.instr)).toList

/-- The state is in canonical form: what every step and every host operation keeps. -/
structure State.Canonical (s : State) : Prop where
  /-- Data memory is canonical: valid addresses only, rising, no zero entry. -/
  memWf    : s.mem.wf
  /-- The instruction store is canonical: storable addresses, rising, fields in range. -/
  imemWf   : s.imem.wf s.params
  /-- The predictor table is canonical: addresses multiples of 4, rising. -/
  bpWf     : s.bp.wf
  /-- `pc` is a multiple of 4 (10_state.md R29). -/
  pcAligned : s.pc.toNat % 4 = 0
  /-- Every instruction in a slot has its fields in range (30_encoding.md R97). -/
  slotsWf  : ∀ i ∈ slotInstrs s, i.wf = true

/-- What every step keeps, besides the canonical form; a host Load or Inject between steps may break it. -/
structure State.PipelineInv (s : State) : Prop where
  /-- While IF is occupied, `pc` is the address its instruction was fetched from (10_state.md R27). -/
  fetchedAtPc : ∀ i, s.ifSlot = some i → iFetch s s.pc = some i
  /-- A `j` is in no slot after IF (46_control.md R239). -/
  noJump : ∀ target, .j target ∉ slotInstrsAfterIf s
  /-- Under `ResolveInDecode` a `beq` is in no slot after IF (46_control.md R239). -/
  noBranch : s.params.ctrlPolicy = .resolveInDecode → ∀ rs rt offset, .beq rs rt offset ∉ slotInstrsAfterIf s
  /-- Under `ResolveInDecode` the predictor table is empty (10_state.md R38). -/
  bpEmpty : s.params.ctrlPolicy = .resolveInDecode → s.bp = []
  /-- The ID cache holds the registers' values, and 0 for an instruction without such fields (10_state.md R32). -/
  idCache : ∀ p, s.idSlot = some p → p = captureOperands p.instr s

/-! ### Runs -/

/-- `k` steps of the machine, stopping at the first stop. -/
def runFor (k : Nat) (s : State) : Host.Outcome State Fault Refusal := Host.Core.run Sys2Proof.core k s

/-- How many instructions the ID phases of `k` steps decode. -/
def decodedCount : Nat → State → Nat
  | 0, _ => 0
  | k + 1, s =>
    (if s.ifSlot.isSome then 1 else 0) +
      (match step s with
       | .next t    => decodedCount k t
       | .fault _   => 0
       | .refused _ => 0)

/-- `k` instructions fetched from the store and executed one at a time, in order (40_engine_step.md R174). -/
def seqRun (p : Params) (m : InstrStore) : Nat → Word → DataState → Option (Word × DataState)
  | 0, pc, d => some (pc, d)
  | k + 1, pc, d =>
    match m.fetch p pc.toNat with
    | none   => none
    | some i => seqRun p m k (seqNextPc p.ctrlPolicy i d pc) (seqData i d)

/-! ### The conditions of 40_engine_step.md R174 at one step -/

/-- R-type in ID: the youngest older writer of each register it names is no `lw` in EX or MEM
(70_reset_and_hazards.md R332, R334). -/
def loadUseSpaced (s : State) : Prop :=
  ∀ d, s.idSlot = some d → isR d.instr = true → ∀ r, namesReg d.instr r = true →
    (∀ e, s.exSlot = some e → loadDestOf e.instr ≠ some r) ∧
    (∀ m, s.memSlot = some m → loadDestOf m.instr = some r → ∃ e, s.exSlot = some e ∧ rdOf e.instr = some r)

/-- `beq` in IF: no instruction in ID or EX writes a register it compares (70_reset_and_hazards.md R332, R335). -/
def branchSpaced (s : State) : Prop :=
  ∀ rs rt offset, s.ifSlot = some (.beq rs rt offset) → ∀ r, (r = rs ∨ r = rt) →
    (∀ d, s.idSlot = some d → destOf d.instr ≠ some r) ∧ (∀ e, s.exSlot = some e → destOf e.instr ≠ some r)

/-- The `lw` in EX, if there is one, has a valid address once the instruction in MEM has written its register
(20_memory.md R67, R79). -/
def loadAddrValid (s : State) : Prop :=
  ∀ rs rt offset r, s.exSlot = some { instr := .lw rs rt offset, result := r } →
    validDAddr (signed ((finishMem s.memSlot (dataOf s)).reg rs) + offset) = true

/-- Under `PredictVerify`, a `beq` in IF whose condition holds is one the predictor mispredicts: its counter is 0 or 1
(40_engine_step.md R174, 46_control.md R232). -/
def takenBranchMispredicted (s : State) : Prop :=
  s.params.ctrlPolicy = .predictVerify → ∀ rs rt offset, s.ifSlot = some (.beq rs rt offset) →
    (finishMem s.memSlot (dataOf s)).reg rs = (finishMem s.memSlot (dataOf s)).reg rt →
    counterTaken (bpCounter s.pc.toNat s.bp) = false

/-- All the conditions of 40_engine_step.md R174 at one step. -/
def hazardFree (s : State) : Prop :=
  loadUseSpaced s ∧ branchSpaced s ∧ loadAddrValid s ∧ takenBranchMispredicted s

end Sys2Proof.Machine
end

