-- ==== Sys2Proof/Certificates/Slice0/Obligations.lean ====
section
/-! DEFINITION. The statements for the provers. Each docstring says which rule of spec/ the statement formalises, and
which of its clauses rest on a choice of the spec's own (92 D<n>) or of the model's (assumption <n>). -/

open Sys2Proof Sys2Proof.Machine

/-! ### Encoding (30_encoding.md Part 2, decision D9) -/

/-- 30_encoding.md Part 2: `decode(encode(I)) = some(I)` for every Instruction whose fields are in range. The encoding is
the spec's decision D9. -/
def Obligations.DecodeOfEncode : Prop :=
  ∀ i : Instr, i.wf = true → decode (encode i) = some i

/-- 30_encoding.md Part 2: `encode(decode(w)) = w` for every word that decodes (decision D9). -/
def Obligations.EncodeOfDecode : Prop :=
  ∀ (w : Word) (i : Instr), decode w = some i → encode i = w

/-- 30_encoding.md Part 2: the rows of the opcode map are pairwise disjoint, so at most one matches a word (decision D9). -/
def Obligations.OneOpcodeRowPerWord : Prop :=
  opcodeRows.Pairwise fun r q => ∀ w : Word, r.selects w = true → q.selects w = false

/-- 30_encoding.md Parts 1 and 2: a decoded instruction has its fields in range (decisions D9, D24). -/
def Obligations.DecodedFieldsInRange : Prop :=
  ∀ (w : Word) (i : Instr), decode w = some i → i.wf = true

/-- 96_test_vectors_derived.md V16: one word of each family, written out from the encoding, and words that are no
instructions (decisions D9, D10). -/
def Obligations.SpecWordsDecode : Prop :=
  decode 0x716C5002 = some (.mul 10 11 12) ∧
  decode 0x8FA8FFFC = some (.lw 29 8 (-4)) ∧
  decode 0xAC228000 = some (.sw 1 2 (-32768)) ∧
  decode 0x1022FFFF = some (.beq 1 2 (-1)) ∧
  decode 0x0BFFFFFF = some (.j 67108863) ∧
  decode 0x00000000 = some .nop ∧
  decode 0x00000060 = none ∧
  decode 0xFFFFFFFF = none

/-! ### The step runs the decoded instruction -/

/-- 40_engine_step.md R141 and 50_host_interface.md section 1: a word at `pc` that decodes to `i` is put in IF by the next
unstalled step, `pc` staying, and the step after it is: forwarding, hazard detection, the WB, MEM and EX phases, then
`exec i` in the ID phase, then the IF phase and the cycle count. -/
def Obligations.StepRunsTheDecodedInstruction : Prop :=
  ∀ (s : State) (w : Word) (i : Instr),
    decode w = some i → s.ifSlot = none → hazardDetected s = false → storableAt s.params s.pc.toNat = true →
    ∃ t, step (loadWord s.pc w s) = .next t ∧ t.ifSlot = some i ∧ t.pc = s.pc ∧
      step t =
        andThen (runStage .wb (hazardPhase (forwardingPhase t))) fun s1 =>
        andThen (runStage .mem s1) fun s2 =>
        andThen (runStage .ex s2) fun s3 =>
        andThen (exec i { s3 with stage := .id }) fun s4 =>
        .next (tick (ifPhase s4))

/-- 40_engine_step.md sections 2 to 5: in each of the phases WB, MEM, EX, ID the instruction in the slot the phase
consumes is handed to `exec` with that phase named, and an empty slot is skipped. Nothing is claimed of WB when the WB
phase finds MEM empty (93 U3, decision D14). -/
def Obligations.PhaseRunsTheSlotsInstruction : Prop :=
  ∀ s : State,
    (∀ p, s.memSlot = some p → runStage .wb s = exec p.instr { s with stage := .wb }) ∧
    (∀ p, s.exSlot = some p → runStage .mem s = exec p.instr { s with stage := .mem }) ∧
    (∀ p, s.idSlot = some p → runStage .ex s = exec p.instr { s with stage := .ex }) ∧
    (∀ i, s.ifSlot = some i → runStage .id s = exec i { s with stage := .id }) ∧
    (s.memSlot = none → ∃ w, runStage .wb s = .next { s with wbSlot := w, stage := .wb }) ∧
    (s.exSlot = none → runStage .mem s = .next { s with stage := .mem }) ∧
    (s.idSlot = none → runStage .ex s = .next { s with stage := .ex }) ∧
    (s.ifSlot = none → runStage .id s = .next { s with stage := .id })

/-- The model's `withFetchWord` (assumption 6): the very next step hands the word's instruction to `exec` in its ID
phase. -/
def Obligations.FetchWordRunsNext : Prop :=
  ∀ (s : State) (w : Word) (i : Instr), decode w = some i →
    (s.withFetchWord 32 w.toNat).pc = s.pc ∧
    step (s.withFetchWord 32 w.toNat) =
      andThen (runStage .wb (hazardPhase (forwardingPhase (s.withFetchWord 32 w.toNat)))) fun s1 =>
      andThen (runStage .mem s1) fun s2 =>
      andThen (runStage .ex s2) fun s3 =>
      andThen (exec i { s3 with stage := .id }) fun s4 =>
      .next (tick (ifPhase s4))

/-- 40_engine_step.md section 1 and 60_exceptions.md section 1: a step is defined on every state and never faults. -/
def Obligations.StepNeverStops : Prop :=
  ∀ s : State, ∃ t, step s = .next t

/-! ### What each instruction does in each of its phases, and its frame

Each conclusion gives the whole next state: a field not written in it is the field before. -/

/-- The effect of an R-type instruction whose EX computation is `f`, in each phase. -/
def rTypeEffect (i : Instr) (rd rs rt : RegIdx) (f : Word → Word → Word) (s : State) : Prop :=
  (s.stage = .id → exec i s = .next
    { s with pc := s.pc + 4, ifSlot := none,
             idSlot := some { instr := i, rsValue := readReg s rs, rtValue := readReg s rt } }) ∧
  (s.stage = .ex → ∀ p, s.idSlot = some p → exec i s = .next
    { s with exSlot := some { instr := i, result := f p.rsValue p.rtValue }, idSlot := none }) ∧
  (s.stage = .mem → ∀ p, s.exSlot = some p → exec i s = .next
    { s with memSlot := some { instr := i, result := p.result }, exSlot := none }) ∧
  (s.stage = .wb → ∀ p, s.memSlot = some p → exec i s = .next
    { s with regs := s.regs.set rd.val p.result,
             wbSlot := some { instr := i, result := p.result }, memSlot := none })

/-- 44_arith.md: `add`, `sub` and `mul` compute sum, difference and low product modulo 2^32 of the cached values (the wrap
is the spec's decision D2), write `x[rd]` in WB, `rd = 0` included, advance `pc` by 4, and change nothing else. -/
def Obligations.ArithmeticEffectInEveryPhase : Prop :=
  ∀ (rd rs rt : RegIdx) (s : State),
    rTypeEffect (.add rd rs rt) rd rs rt (fun a b => a + b) s ∧
    rTypeEffect (.sub rd rs rt) rd rs rt (fun a b => a - b) s ∧
    rTypeEffect (.mul rd rs rt) rd rs rt (fun a b => a * b) s

/-- 45_loadstore.md: `lw` reads the word at a valid address in MEM (from the register file as it stands then), takes a
free value at an invalid one (decision D11; assumption 4), and writes `x[rt]` in WB. Nothing is claimed of its EX result
(93 U4). No word of memory changes. -/
def Obligations.LoadEffectInEveryPhase : Prop :=
  ∀ (rs rt : RegIdx) (offset : Int) (s : State),
    (s.stage = .id → exec (.lw rs rt offset) s = .next
      { s with pc := s.pc + 4, ifSlot := none,
               idSlot := some { instr := .lw rs rt offset, rsValue := readReg s rs, rtValue := readReg s rt } }) ∧
    (s.stage = .ex → ∀ p, s.idSlot = some p → ∃ r : Word, exec (.lw rs rt offset) s = .next
      { s with exSlot := some { instr := .lw rs rt offset, result := r }, idSlot := none }) ∧
    (s.stage = .mem → ∀ p, s.exSlot = some p → validDAddr (effectiveAddr s rs offset) = true →
      exec (.lw rs rt offset) s = .next
        { s with memSlot := some { instr := .lw rs rt offset,
                                   result := s.mem.readWord (effectiveAddr s rs offset).toNat }, exSlot := none }) ∧
    (s.stage = .mem → ∀ p, s.exSlot = some p → validDAddr (effectiveAddr s rs offset) = false →
      exec (.lw rs rt offset) s = .next
        { s with memSlot := some { instr := .lw rs rt offset, result := Config.unspec32 s.draws }, exSlot := none,
                 draws := s.draws + 1 }) ∧
    (s.stage = .wb → ∀ p, s.memSlot = some p → exec (.lw rs rt offset) s = .next
      { s with regs := s.regs.set rt.val p.result,
               wbSlot := some { instr := .lw rs rt offset, result := p.result }, memSlot := none })

/-- 45_loadstore.md: `sw` writes `x[rt]`, read in MEM, to the word at a valid address and to no other word; at an invalid
address it writes nothing (decision D11). It writes no register. Nothing is claimed of its EX result (93 U4). -/
def Obligations.StoreEffectInEveryPhase : Prop :=
  ∀ (rs rt : RegIdx) (offset : Int) (s : State),
    (s.stage = .id → exec (.sw rs rt offset) s = .next
      { s with pc := s.pc + 4, ifSlot := none,
               idSlot := some { instr := .sw rs rt offset, rsValue := readReg s rs, rtValue := readReg s rt } }) ∧
    (s.stage = .ex → ∀ p, s.idSlot = some p → ∃ r : Word, exec (.sw rs rt offset) s = .next
      { s with exSlot := some { instr := .sw rs rt offset, result := r }, idSlot := none }) ∧
    (s.stage = .mem → ∀ p, s.exSlot = some p → validDAddr (effectiveAddr s rs offset) = true →
      ∃ m : Memory,
        exec (.sw rs rt offset) s = .next
          { s with memSlot := some { instr := .sw rs rt offset, result := p.result }, exSlot := none, mem := m } ∧
        ∀ a : Nat, m.readWord a =
          if a = (effectiveAddr s rs offset).toNat then readReg s rt else s.mem.readWord a) ∧
    (s.stage = .mem → ∀ p, s.exSlot = some p → validDAddr (effectiveAddr s rs offset) = false →
      exec (.sw rs rt offset) s = .next
        { s with memSlot := some { instr := .sw rs rt offset, result := p.result }, exSlot := none }) ∧
    (s.stage = .wb → ∀ p, s.memSlot = some p → exec (.sw rs rt offset) s = .next
      { s with wbSlot := some { instr := .sw rs rt offset, result := p.result }, memSlot := none })

/-- 46_control.md R231: `beq` under `PredictVerify` in the ID phase. The prediction is that of the counter before the
update, an unseen address counting as 1; on a misprediction the `beq` becomes `NOP` and `pc` goes where the outcome says;
on a correct prediction `pc` goes to `b + 4`, taken or not, and the `beq` moves on. The counter of `b` and of no other
address moves by the outcome, saturating. -/
def Obligations.BranchPredictVerifyDecode : Prop :=
  ∀ (rs rt : RegIdx) (offset : Int) (s : State) (c : Nat) (predicted actual : Bool),
    s.stage = .id → s.params.ctrlPolicy = .predictVerify →
    c = (match lookupAt s.bp s.pc.toNat with
         | some k => k.val
         | none   => 1) →
    predicted = decide (2 ≤ c) →
    actual = decide (readReg s rs = readReg s rt) →
    ∃ t : PredTable,
      exec (.beq rs rt offset) s = .next
        { s with
          pc := if predicted ≠ actual ∧ actual = true then s.pc + BitVec.ofInt 32 (4 * offset) else s.pc + 4
          ifSlot := none
          idSlot := some (if predicted ≠ actual then { instr := .nop, rsValue := 0, rtValue := 0 }
            else { instr := .beq rs rt offset, rsValue := readReg s rs, rtValue := readReg s rt })
          bp := t } ∧
      (∃ k : Counter, lookupAt t s.pc.toNat = some k ∧ k.val = if actual then min 3 (c + 1) else c - 1) ∧
      ∀ a : Nat, a ≠ s.pc.toNat → lookupAt t a = lookupAt s.bp a

/-- 46_control.md R233: `beq` under `ResolveInDecode` in the ID phase: `pc` goes to the absolute index or to `pc + 4`, the
`beq` always becomes `NOP`, and `BP` is neither read nor written. -/
def Obligations.BranchResolveInDecode : Prop :=
  ∀ (rs rt : RegIdx) (offset : Int) (s : State),
    s.stage = .id → s.params.ctrlPolicy = .resolveInDecode →
    exec (.beq rs rt offset) s = .next
      { s with
        pc := if readReg s rs = readReg s rt then BitVec.ofInt 32 (4 * offset) else s.pc + 4
        ifSlot := none
        idSlot := some { instr := .nop, rsValue := 0, rtValue := 0 } }

/-- 46_control.md section 3: after ID a `beq` computes the equality of its cached values as a boolean (nothing is claimed
of which two words stand for it, 93 U4), passes it through MEM, and writes no register, no memory and no `pc`. -/
def Obligations.BranchLaterPhases : Prop :=
  ∃ boolWord : Bool → Word, boolWord true ≠ boolWord false ∧
  ∀ (rs rt : RegIdx) (offset : Int) (s : State),
    (s.stage = .ex → ∀ p, s.idSlot = some p → exec (.beq rs rt offset) s = .next
      { s with exSlot := some { instr := .beq rs rt offset, result := boolWord (decide (p.rsValue = p.rtValue)) },
               idSlot := none }) ∧
    (s.stage = .mem → ∀ p, s.exSlot = some p → exec (.beq rs rt offset) s = .next
      { s with memSlot := some { instr := .beq rs rt offset, result := p.result }, exSlot := none }) ∧
    (s.stage = .wb → ∀ p, s.memSlot = some p → exec (.beq rs rt offset) s = .next
      { s with wbSlot := some { instr := .beq rs rt offset, result := p.result }, memSlot := none })

/-- 46_control.md section 2: `j` sets the whole of `pc` to `4*target` (modulo 2^32; for a target in range no wrap occurs)
under both policies, becomes `NOP`, and changes nothing else; its later arms, for totality, compute a result of which
nothing is claimed (93 U4), pass it through and write nothing. -/
def Obligations.JumpEffectInEveryPhase : Prop :=
  ∀ (target : Nat) (s : State),
    (s.stage = .id → ∃ npc : Word,
      exec (.j target) s = .next
        { s with pc := npc, ifSlot := none, idSlot := some { instr := .nop, rsValue := 0, rtValue := 0 } } ∧
      npc.toNat = 4 * target % 2 ^ 32 ∧ (targetInRange target = true → npc.toNat = 4 * target)) ∧
    (s.stage = .ex → ∀ p, s.idSlot = some p → ∃ r : Word, exec (.j target) s = .next
      { s with exSlot := some { instr := .j target, result := r }, idSlot := none }) ∧
    (s.stage = .mem → ∀ p, s.exSlot = some p → exec (.j target) s = .next
      { s with memSlot := some { instr := .j target, result := p.result }, exSlot := none }) ∧
    (s.stage = .wb → ∀ p, s.memSlot = some p → exec (.j target) s = .next
      { s with wbSlot := some { instr := .j target, result := p.result }, memSlot := none })

/-- 47_nop.md: a program `nop` advances `pc` by 4, travels from slot to slot and changes nothing else. Nothing is claimed of
its EX result (93 U4). -/
def Obligations.NopEffectInEveryPhase : Prop :=
  ∀ s : State,
    (s.stage = .id → exec .nop s = .next
      { s with pc := s.pc + 4, ifSlot := none, idSlot := some { instr := .nop, rsValue := 0, rtValue := 0 } }) ∧
    (s.stage = .ex → ∀ p, s.idSlot = some p → ∃ r : Word, exec .nop s = .next
      { s with exSlot := some { instr := .nop, result := r }, idSlot := none }) ∧
    (s.stage = .mem → ∀ p, s.exSlot = some p → exec .nop s = .next
      { s with memSlot := some { instr := .nop, result := p.result }, exSlot := none }) ∧
    (s.stage = .wb → ∀ p, s.memSlot = some p → exec .nop s = .next
      { s with wbSlot := some { instr := .nop, result := p.result }, memSlot := none })

/-! ### The phases -/

/-- 40_engine_step.md R150, 45_loadstore.md R222, 46_control.md R238: WB phase. With MEM occupied, an R-type writes
`result` to `rd`, a `lw` to `rt`, all others write nothing; the slot moves to WB and MEM is cleared. Nothing else
changes. -/
def Obligations.WbPhaseCommitsTheMemSlot : Prop :=
  ∀ (s : State) (p : Payload), s.memSlot = some p →
    ∃ regs : Vector Word 32,
      runStage .wb s = .next { s with regs := regs, wbSlot := some p, memSlot := none, stage := .wb } ∧
      ∀ r : RegIdx, regs[r.val] =
        (match p.instr with
         | .add rd _ _ => if r = rd then p.result else s.regs[r.val]
         | .sub rd _ _ => if r = rd then p.result else s.regs[r.val]
         | .mul rd _ _ => if r = rd then p.result else s.regs[r.val]
         | .lw _ rt _  => if r = rt then p.result else s.regs[r.val]
         | .sw _ _ _ | .beq _ _ _ | .j _ | .nop => s.regs[r.val])

/-- 40_engine_step.md sections 2 to 5: each of the phases MEM, EX, ID finds the slot it fills empty, since the phase before
it in the step emptied it. -/
def Obligations.PhasesEmptyTheirSource : Prop :=
  ∀ (s t : State),
    (runStage .wb s = .next t → t.memSlot = none) ∧
    (runStage .mem s = .next t → t.exSlot = none) ∧
    (runStage .ex s = .next t → t.idSlot = none) ∧
    (runStage .id s = .next t → t.ifSlot = none)

/-- 40_engine_step.md R165: the IF phase runs only if `stalled` is false; it puts the instruction the store holds at `pc`
in IF, or leaves IF empty at a hole, and does not write `pc` or anything else; and on entry, after the ID phase, IF is
empty. -/
def Obligations.IfPhaseFetchesAtPc : Prop :=
  (∀ s : State, s.stalled = true → ifPhase s = s) ∧
  (∀ (s : State) (i : Instr), s.stalled = false → iFetch s s.pc = some i → ifPhase s = { s with ifSlot := some i }) ∧
  (∀ s : State, s.stalled = false → iFetch s s.pc = none → ifPhase s = { s with ifSlot := none }) ∧
  (∀ s t : State, runStage .id s = .next t → t.ifSlot = none)

/-! ### Forwarding, hazard detection, prediction -/

/-- 41_forwarding.md: ForwardingPhase changes only the cached values of the ID payload, and each to the result of an R-type
in EX whose `rd` is that field, else of one in MEM, else not at all. That EX wins is the spec's decision D26. -/
def Obligations.ForwardingGivesYoungestResult : Prop :=
  (∀ s : State, s.idSlot = none → forwardingPhase s = s) ∧
  ∀ (s : State) (d : IdPayload), s.idSlot = some d →
    ∃ a b : Word, forwardingPhase s = { s with idSlot := some { instr := d.instr, rsValue := a, rtValue := b } } ∧
      (∀ e r, s.exSlot = some e → rdOf e.instr = some r →
        (rsOf d.instr = some r → a = e.result) ∧ (rtOf d.instr = some r → b = e.result)) ∧
      (∀ m r, s.memSlot = some m → rdOf m.instr = some r →
        (∀ e, s.exSlot = some e → rdOf e.instr ≠ some r) →
        (rsOf d.instr = some r → a = m.result) ∧ (rtOf d.instr = some r → b = m.result)) ∧
      ((∀ p, (s.exSlot = some p ∨ s.memSlot = some p) → rdOf p.instr = none ∨ rsOf d.instr ≠ rdOf p.instr) →
        a = d.rsValue) ∧
      ((∀ p, (s.exSlot = some p ∨ s.memSlot = some p) → rdOf p.instr = none ∨ rtOf d.instr ≠ rdOf p.instr) →
        b = d.rtValue)

/-- 42_hazard_detector.md R190, R191: the structural check is true exactly when MEM and IF both hold a load or store, or
EX and ID both hold a `mul`. -/
def Obligations.StructuralHazardExactly : Prop :=
  ∀ s : State, structuralHazard s = true ↔
    ((∃ m i, s.memSlot = some m ∧ s.ifSlot = some i ∧
        (∃ rs rt offset, m.instr = .lw rs rt offset ∨ m.instr = .sw rs rt offset) ∧
        (∃ rs rt offset, i = .lw rs rt offset ∨ i = .sw rs rt offset)) ∨
     (∃ e d, s.exSlot = some e ∧ s.idSlot = some d ∧
        (∃ rd rs rt, e.instr = .mul rd rs rt) ∧ (∃ rd rs rt, d.instr = .mul rd rs rt)))

/-- 42_hazard_detector.md: the data check is true exactly when EX holds an R-type or a `lw` whose destination register is
the `rs` or `rt` field of the instruction in ID; that the field's role does not matter is decision D15. -/
def Obligations.DataHazardExactly : Prop :=
  ∀ s : State, dataHazard s = true ↔
    ∃ e d r, s.exSlot = some e ∧ s.idSlot = some d ∧ destOf e.instr = some r ∧
      (rsOf d.instr = some r ∨ rtOf d.instr = some r)

/-- 42_hazard_detector.md R195: `stalled` takes the disjunction of the structural, data and control checks, overwriting
what it held, and the phase changes nothing else. The control check is true exactly when ID holds a `beq` or `j`. -/
def Obligations.HazardPhaseSetsStalled : Prop :=
  (∀ (s : State) (old : Bool),
    hazardPhase { s with stalled := old } =
      { s with stalled := structuralHazard s || dataHazard s || controlHazard s }) ∧
  ∀ s : State, controlHazard s = true ↔
    ∃ d, s.idSlot = some d ∧ ((∃ rs rt offset, d.instr = .beq rs rt offset) ∨ ∃ target, d.instr = .j target)

/-- 40_engine_step.md section 1: the detector's result depends only on which instructions sit in IF, ID, EX and MEM, and
forwarding does not change it. -/
def Obligations.HazardReadsOnlySlotInstructions : Prop :=
  (∀ s t : State,
    s.ifSlot = t.ifSlot → s.idSlot.map (·.instr) = t.idSlot.map (·.instr) →
    s.exSlot.map (·.instr) = t.exSlot.map (·.instr) → s.memSlot.map (·.instr) = t.memSlot.map (·.instr) →
    hazardDetected s = hazardDetected t) ∧
  ∀ s : State, hazardDetected (forwardingPhase s) = hazardDetected s

/-- 43_branch_predictor.md R201: `predict` returns whether the counter is at least 2, after creating an unseen address's
entry with value 1; it changes no other entry. -/
def Obligations.PredictInitialisesLazily : Prop :=
  ∀ (a : Nat) (t : PredTable),
    (lookupAt t a = none → (predict a t).1 = false ∧ lookupAt (predict a t).2 a = some 1) ∧
    (∀ c, lookupAt t a = some c → (predict a t).1 = decide (2 ≤ c.val) ∧ (predict a t).2 = t) ∧
    ∀ b, b ≠ a → lookupAt (predict a t).2 b = lookupAt t b

/-- 43_branch_predictor.md R202: `update` moves the entry, created with value 1 where it was unseen, one up toward 3 or
one down toward 0, saturating, and changes no other entry. -/
def Obligations.UpdateSaturates : Prop :=
  ∀ (a : Nat) (taken : Bool) (t : PredTable) (c : Nat),
    c = (match lookupAt t a with
         | some k => k.val
         | none   => 1) →
    (∃ k : Counter, lookupAt (update a taken t) a = some k ∧
      k.val = if taken then min 3 (c + 1) else max 0 (c - 1)) ∧
    ∀ b, b ≠ a → lookupAt (update a taken t) b = lookupAt t b

/-- 43_branch_predictor.md R206: from unseen, `predict(a)` is false before any update, true after the first
`update(a, true)`, and after three and any number of further ones the counter is 3 and `predict(a)` stays true. -/
def Obligations.PredictorSaturatesAtThree : Prop :=
  ∀ (a : Nat) (t : PredTable), lookupAt t a = none →
    (predict a t).1 = false ∧
    (predict a (update a true t)).1 = true ∧
    ∀ n : Nat,
      lookupAt ((update a true)^[3 + n] t) a = some 3 ∧ (predict a ((update a true)^[3 + n] t)).1 = true

/-! ### The step as a whole -/

/-- 10_state.md section 1 and 20_memory.md section 3, over one step from any state: a register changes only by the
instruction in MEM, which writes its destination; a memory word changes only by a `sw` in EX with a valid address, computed
from the registers after that write; the store and the parameters never change; `cycle` goes up by one; `stalled` is the
Hazard Detector's result. That an invalid `sw` writes nothing is decision D11. -/
def Obligations.StepEffectOnRegistersAndMemory : Prop :=
  ∀ s t : State, step s = .next t →
    (∀ r : RegIdx, readReg t r =
      (match s.memSlot with
       | none   => readReg s r
       | some p => if destOf p.instr = some r then p.result else readReg s r)) ∧
    (∀ a : Nat, t.mem.readWord a =
      (match s.exSlot with
       | some { instr := .sw rs rt offset, result := _ } =>
         if validDAddr (effectiveAddr t rs offset) = true ∧ a = (effectiveAddr t rs offset).toNat
         then readReg t rt else s.mem.readWord a
       | _ => s.mem.readWord a)) ∧
    t.imem = s.imem ∧ t.params = s.params ∧ t.cycle = s.cycle + 1 ∧ t.stalled = hazardDetected s

/-- 40_engine_step.md section 8 (rigid progression, stage clearing), over one step from any state: each payload moves to
the next slot, stalled or not; a `lw` gets its word on the way to MEM; the instruction in IF moves to ID as itself or, for a
`j` or `beq`, possibly as `NOP`. Nothing is claimed of WB when MEM was empty (93 U3). -/
def Obligations.StepMovesEverySlot : Prop :=
  ∀ s t : State, step s = .next t →
    (∀ p, s.memSlot = some p → t.wbSlot = some p) ∧
    t.memSlot.map (·.instr) = s.exSlot.map (·.instr) ∧
    (∀ p, s.exSlot = some p → isLoad p.instr = false → t.memSlot = some p) ∧
    t.exSlot.map (·.instr) = s.idSlot.map (·.instr) ∧
    (s.ifSlot = none → t.idSlot = none) ∧
    (∀ i, s.ifSlot = some i →
      ∃ k, t.idSlot = some (captureOperands k t) ∧ (k = i ∨ (isCtrl i = true ∧ k = .nop))) ∧
    t.ifSlot = if hazardDetected s then none else iFetch t t.pc

/-- 10_state.md sections 2 and 4, over one step from any state: `pc` and `BP` are written only by the instruction in IF;
without one they stay; all but `beq` and `j` advance `pc` by 4; `j` goes to `4*target`; `BP` changes only at `pc`, only by
a `beq`, only under `PredictVerify`, and never loses an entry. -/
def Obligations.StepWritesPcAndPredictorOnlyFromIf : Prop :=
  ∀ s t : State, step s = .next t →
    (s.ifSlot = none → t.pc = s.pc) ∧
    (∀ i, s.ifSlot = some i → isCtrl i = false → t.pc = s.pc + 4) ∧
    (∀ target, s.ifSlot = some (.j target) → t.pc = jTarget target) ∧
    (∀ rs rt offset, s.ifSlot = some (.beq rs rt offset) →
      t.pc = s.pc + 4 ∨ (readReg t rs = readReg t rt ∧ t.pc = beqTarget s.params.ctrlPolicy s.pc offset)) ∧
    (∀ a, lookupAt s.bp a ≠ none → lookupAt t.bp a ≠ none) ∧
    (t.bp ≠ s.bp → s.params.ctrlPolicy = .predictVerify ∧ ∃ rs rt offset, s.ifSlot = some (.beq rs rt offset)) ∧
    (∀ a, a ≠ s.pc.toNat → lookupAt t.bp a = lookupAt s.bp a)

/-- 70_reset_and_hazards.md section 2 and 41_forwarding.md: a `lw` is never a forwarding source. An R-type in ID that
follows a `lw` in EX, with no R-type in MEM, computes on its cached values, whatever the `lw` loads; if it names the `lw`'s
destination the step also withholds its fetch, which changes nothing for it. -/
def Obligations.LoadIsNeverForwarded : Prop :=
  ∀ (s t : State) (d : IdPayload) (rs rt : RegIdx) (offset : Int) (r : Word),
    s.idSlot = some d → isR d.instr = true →
    s.exSlot = some { instr := .lw rs rt offset, result := r } →
    (∀ m, s.memSlot = some m → isR m.instr = false) →
    step s = .next t →
    (∃ v, t.exSlot = some { instr := d.instr, result := v } ∧
      (∀ rd a b, d.instr = .add rd a b → v = d.rsValue + d.rtValue) ∧
      (∀ rd a b, d.instr = .sub rd a b → v = d.rsValue - d.rtValue) ∧
      (∀ rd a b, d.instr = .mul rd a b → v = d.rsValue * d.rtValue)) ∧
    (namesReg d.instr rt = true → t.stalled = true ∧ t.ifSlot = none)

/-- 10_state.md sections 3 and 5: `cycle` has no behavioural effect and nothing reads the WB slot or the old `stalled`
flag: two states that differ only there step to states that differ only in `cycle` and WB, whatever values they draw. The
counter of drawn values, the model's own (assumption 4), differs too, so that the two draws of a `lw` in EX with an invalid
address are not assumed equal: only its loaded word may then differ. -/
def Obligations.CycleWbAndOldFlagHaveNoEffect : Prop :=
  ∀ (s t : State) (n k : Nat) (w : Option Payload) (flag : Bool), step s = .next t →
    ∃ n' k' w' m',
      step { s with cycle := n, wbSlot := w, stalled := flag, draws := k } =
        .next { t with cycle := n', wbSlot := w', draws := k', memSlot := m' } ∧
      m'.map (·.instr) = t.memSlot.map (·.instr) ∧ (loadAddrValid s → m' = t.memSlot)

/-! ### Reset, holes, the drained state -/

/-- 10_state.md R45, R25 and 50_host_interface.md R273: after Reset from any state, and equally after construction, every
register and memory word is 0, `pc` is 0, the store, the five slots and `BP` are empty, `stalled` is false and `cycle` is 0;
and Reset twice in a row is Reset once. -/
def Obligations.ResetValues : Prop :=
  (∀ s : State, hostReset (hostReset s) = hostReset s) ∧
  ∀ s u : State, (u = hostReset s ∨ u = State.reset) →
    (∀ r : RegIdx, readReg u r = 0) ∧
    (∀ k : Nat, k < 1024 → u.mem.readWord (4 * k) = 0) ∧
    u.pc = 0 ∧
    (∀ a : Word, iFetch u a = none) ∧
    u.ifSlot = none ∧ u.idSlot = none ∧ u.exSlot = none ∧ u.memSlot = none ∧ u.wbSlot = none ∧
    u.bp = [] ∧ u.stalled = false ∧ u.cycle = 0

/-- 70_reset_and_hazards.md section 1: after Reset, stepping does nothing but count. That WB stays empty in these steps is
decision D14. -/
def Obligations.StepsAfterResetOnlyCount : Prop :=
  ∀ (s : State) (k : Nat), runFor k (hostReset s) = .next { hostReset s with cycle := k }

/-- 40_engine_step.md section 8: in a drained state a step changes nothing but `cycle` and sets `stalled` to false; the
predicate is decision D27. (`stage` is the model's own, assumption 2. Nothing is claimed of WB: 93 U3,
decision D14.) -/
def Obligations.DrainedStepOnlyCounts : Prop :=
  ∀ s : State, drained s →
    (∃ w, step s = .next { s with cycle := s.cycle + 1, stalled := false, wbSlot := w, stage := .id }) ∧
    ∀ t, step s = .next t → drained t

/-- 47_nop.md section on holes: once `pc` is at a hole with IF empty, `pc` stays for ever, nothing is fetched, and the machine
is drained after three steps and stays so. -/
def Obligations.HoleFreezesPc : Prop :=
  ∀ s : State, s.ifSlot = none → iFetch s s.pc = none →
    ∀ k : Nat, ∃ t, runFor k s = .next t ∧ t.pc = s.pc ∧ t.ifSlot = none ∧ (3 ≤ k → drained t)

/-! ### Invariants -/

/-- The canonical form holds at reset. -/
def Obligations.CanonicalAtReset : Prop :=
  State.reset.Canonical

/-- Every step keeps the canonical form: data memory lists only valid addresses, rising, with no zero entry; the store
and the predictor table keep theirs; `pc` stays a multiple of 4 (10_state.md section 2); every instruction in a slot keeps
its fields in range. -/
def Obligations.StepKeepsCanonical : Prop :=
  ∀ s t : State, s.Canonical → step s = .next t → t.Canonical

/-- Every host command keeps the canonical form (50_host_interface.md sections 1 and 2), a step's apart. -/
def Obligations.HostCommandKeepsCanonical : Prop :=
  ∀ (s t : State) (c : Command), s.Canonical → c ≠ .step → clockEdge c s = .next t → t.Canonical

/-- The pipeline invariant holds at reset. -/
def Obligations.PipelineInvAtReset : Prop :=
  State.reset.PipelineInv

/-- Every step keeps the pipeline invariant: an occupied IF holds what the store holds at `pc` (10_state.md section 2); no
`j`, and under `ResolveInDecode` no `beq`, is in a slot after IF (46_control.md section 3); under `ResolveInDecode` `BP` stays
empty (10_state.md section 4); the ID cache is the register file's values (40_engine_step.md section 5). -/
def Obligations.StepKeepsPipelineInv : Prop :=
  ∀ s t : State, s.PipelineInv → step s = .next t → t.PipelineInv

/-! ### The pipeline against the sequential meaning (40_engine_step.md section 8) -/

/-- One step, registers and memory: where the ID cache holds the registers' values, the R-type in ID is spaced from the
`lw`s before it and the `lw` in EX has a valid address, the step's effect on what the instructions in flight amount to is
exactly the one-line meaning of the instruction in IF. -/
def Obligations.StepRefinesSequentialData : Prop :=
  ∀ s t : State,
    (∀ p, s.idSlot = some p → p = captureOperands p.instr s) → loadUseSpaced s → loadAddrValid s →
    step s = .next t →
    completed t =
      (match s.ifSlot with
       | some i => seqData i (completed s)
       | none   => completed s)

/-- One step, `pc`: where a `beq` in IF is spaced from the writers of its registers and, under `PredictVerify`, is
mispredicted when taken, `pc` goes to the sequential successor of the instruction in IF. -/
def Obligations.StepRefinesSequentialPc : Prop :=
  ∀ s t : State, branchSpaced s → takenBranchMispredicted s → step s = .next t →
    t.pc =
      (match s.ifSlot with
       | some i => seqNextPc s.params.ctrlPolicy i (completed s) s.pc
       | none   => s.pc)

/-- Any number of steps: where every state on the way respects the conditions, the run is a sequential execution, from the
store, of as many instructions as the run's ID phases decode; and once drained, what the instructions in flight amount to
is the registers and memory themselves. -/
def Obligations.RunRefinesSequentialExecution : Prop :=
  (∀ (n : Nat) (s t : State), s.PipelineInv →
    (∀ k, k < n → ∀ u, runFor k s = .next u → hazardFree u) → runFor n s = .next t →
    seqRun s.params s.imem (decodedCount n s) s.pc (completed s) = some (t.pc, completed t)) ∧
  ∀ t : State, drained t → completed t = dataOf t

/-! ### The life of one instruction (40_engine_step.md section 8, 70_reset_and_hazards.md section 3) -/

/-- The pipeline ahead of the instruction at `pc` is empty and the store holds `i` there. -/
def aloneAtPc (s : State) (i : Instr) : Prop :=
  s.ifSlot = none ∧ s.idSlot = none ∧ s.exSlot = none ∧ s.memSlot = none ∧ iFetch s s.pc = some i

/-- Fetched with nothing ahead of it, an R-type has written `x[rd]`, and no other register is changed, five steps later,
whatever the store holds after it. (The wrap is decision D2.) -/
def Obligations.ArithmeticWritesInFifthStep : Prop :=
  ∀ (s : State) (rd rs rt : RegIdx),
    (aloneAtPc s (.add rd rs rt) →
      ∃ t, runFor 5 s = .next t ∧ t.regs = s.regs.set rd.val (readReg s rs + readReg s rt)) ∧
    (aloneAtPc s (.sub rd rs rt) →
      ∃ t, runFor 5 s = .next t ∧ t.regs = s.regs.set rd.val (readReg s rs - readReg s rt)) ∧
    (aloneAtPc s (.mul rd rs rt) →
      ∃ t, runFor 5 s = .next t ∧ t.regs = s.regs.set rd.val (readReg s rs * readReg s rt))

/-- Fetched with nothing ahead of it, a `lw` with a valid address has written the word to `x[rt]` five steps later, and a
`sw` with a valid address has written `x[rt]` to its word and no other word four steps later, no register being changed. -/
def Obligations.LoadAndStoreAccessInFourthStep : Prop :=
  ∀ (s : State) (rs rt : RegIdx) (offset : Int), validDAddr (effectiveAddr s rs offset) = true →
    (aloneAtPc s (.lw rs rt offset) →
      ∃ t, runFor 5 s = .next t ∧
        t.regs = s.regs.set rt.val (s.mem.readWord (effectiveAddr s rs offset).toNat)) ∧
    (aloneAtPc s (.sw rs rt offset) →
      ∃ t, runFor 4 s = .next t ∧ t.regs = s.regs ∧
        ∀ a : Nat, t.mem.readWord a =
          if a = (effectiveAddr s rs offset).toNat then readReg s rt else s.mem.readWord a)

/-! ### The host interface -/

/-- 50_host_interface.md section 1: `LOAD_CLEAR` empties the store and sets `pc` to 0; loading a word stores what it
decodes to at a multiple of 4 within the extent, and makes a hole otherwise (decision D10), also where an instruction was
stored before (the model's choice, assumption 11); no other address of the store changes; and neither touches registers,
memory, slots, `BP`, `stalled` or `cycle` (decision D18). -/
def Obligations.LoadStoresDecodedWords : Prop :=
  ∀ (s : State) (addr word : Word),
    (∃ m, loadClear s = { s with imem := m, pc := 0 } ∧ ∀ a : Word, iFetch (loadClear s) a = none) ∧
    (∃ m, loadWord addr word s = { s with imem := m }) ∧
    iFetch (loadWord addr word s) addr =
      (if addr.toNat % 4 = 0 ∧ (∀ n, s.params.imemWords = some n → addr.toNat / 4 < n) then decode word else none) ∧
    ∀ a : Word, a ≠ addr → iFetch (loadWord addr word s) a = iFetch s a

/-- 50_host_interface.md section 1 and 30_encoding.md Part 3: a Load of source text sets `pc` to 0, puts each accepted
instruction at its line's address within the extent, a multiple of 4, leaves every other address a hole, touches nothing
else (decision D18), and reports whether any was accepted. -/
def Obligations.SourceLoadStoresAcceptedLines : Prop :=
  ∀ (s : State) (source : List Char),
    (∃ m, (loadSource source s).1 = { s with imem := m, pc := 0 }) ∧
    (∀ e ∈ (assemble s.params.ctrlPolicy source).entries, e.1 % 4 = 0 ∧
      (inExtent s.params e.1 = true → iFetch (loadSource source s).1 (BitVec.ofNat 32 e.1) = some e.2)) ∧
    (∀ (a : Word) (i : Instr), iFetch (loadSource source s).1 a = some i →
      (a.toNat, i) ∈ (assemble s.params.ctrlPolicy source).entries) ∧
    ((loadSource source s).2.accepted = false ↔ (assemble s.params.ctrlPolicy source).entries = []) ∧
    ((loadSource source s).2.accepted = false → ∀ a : Word, iFetch (loadSource source s).1 a = none) ∧
    (loadSource source s).2.rejected = (assemble s.params.ctrlPolicy source).rejected

/-- 50_host_interface.md section 1 and 20_memory.md section 3: an injected register (by index or by token) or word is
written, the accessor reports success, and nothing else changes: not `pc`, not a payload in flight, not `BP`. An index
outside 0..31, a text that is no register token, an invalid address changes nothing and is reported as ignored. A read gives
back what was injected, every other register and word as before, and no value where none exists (decision D23). -/
def Obligations.InjectAndInspect : Prop :=
  ∀ (s : State) (v : Word),
    (∀ r : RegIdx, pokeReg r.val v s = ({ s with regs := s.regs.set r.val v }, true)) ∧
    (∀ n : Nat, 32 ≤ n → pokeReg n v s = (s, false) ∧ peekReg n s = none) ∧
    (∀ n m : Nat, n < 32 → peekReg m (pokeReg n v s).1 = if m = n then some v else peekReg m s) ∧
    (∀ (token : List Char) (r : RegIdx), parseReg token = some r → pokeRegToken token v s = pokeReg r.val v s) ∧
    (∀ token : List Char, parseReg token = none → pokeRegToken token v s = (s, false)) ∧
    (∀ a : Int, validDAddr a = true → ∃ m : Memory, pokeMem a v s = ({ s with mem := m }, true)) ∧
    (∀ a : Int, validDAddr a = false → pokeMem a v s = (s, false) ∧ peekMem a s = none) ∧
    (∀ a b : Int, validDAddr a = true → peekMem b (pokeMem a v s).1 = if b = a then some v else peekMem b s)

/-- 30_encoding.md Part 3: the assembler reads an instruction's canonical text back as the instruction, under both
policies and at every instruction index (the lexical details are decision D21 and assumption 12). -/
def Obligations.AssemblerReadsCanonicalText : Prop :=
  ∀ (policy : CtrlPolicy) (b : Nat) (i : Instr), i.wf = true → parseInstr policy [] b (render i) = some i
end

