-- ==== Sys2Proof/Laws/Assembler.lean ====
section
/-! SUPPORT. The laws of the assembler's tokens: a rendered number or register is read back. -/

namespace Sys2Proof.Machine

/-- A rendered number consists of digits. -/
theorem isDigit_of_mem_renderNat {n : Nat} {c : Char} (h : c ∈ renderNat n) : c.isDigit = true :=
  Nat.isDigit_of_mem_toDigits (by decide) (by decide) h

theorem renderNat_ne_nil (n : Nat) : renderNat n ≠ [] := Nat.toDigits_ne_nil

/-- A rendered number is read back. -/
@[simp] theorem parseNat_renderNat (n : Nat) : parseNat (renderNat n) = some n := by
  have hall : (renderNat n).all Char.isDigit = true := List.all_eq_true.mpr fun c hc => isDigit_of_mem_renderNat hc
  have hval : Nat.ofDigitChars 10 (Nat.toDigits 10 n) 0 = n := Nat.ofDigitChars_ten_toDigits
  rw [Nat.ofDigitChars_eq_foldl] at hval
  simp only [parseNat, hall, List.isEmpty_eq_false_iff.mpr (renderNat_ne_nil n), Bool.not_false, Bool.and_self, if_true]
  exact congrArg some hval

/-- A rendered integer is read back. -/
@[simp] theorem parseInt_renderInt (n : Int) : parseInt (renderInt n) = some n := by
  unfold renderInt
  split
  · rename_i hneg
    have hval : -((n.natAbs : Nat) : Int) = n := by omega
    simp only [parseInt, parseNat_renderNat]
    exact congrArg some hval
  · have hdash : ∀ ds, renderNat n.natAbs ≠ '-' :: ds := by
      intro ds h
      have : '-' ∈ renderNat n.natAbs := h ▸ List.mem_cons_self
      exact absurd (isDigit_of_mem_renderNat this) (by decide)
    unfold parseInt
    split
    · rename_i ds h
      exact absurd h (hdash ds)
    · have hval : ((n.natAbs : Nat) : Int) = n := by omega
      simp only [parseNat_renderNat]
      exact congrArg some hval

/-- A rendered register token is read back. -/
@[simp] theorem parseReg_renderReg (r : RegIdx) : parseReg (renderReg r) = some r := by
  simp [parseReg, renderReg, r.isLt]

/-! ### Splitting and trimming -/

/-- A text without the separator is one part. -/
theorem splitAtChar_of_not_mem (sep : Char) (l : List Char) (h : sep ∉ l) : splitAtChar sep l = [l] := by
  induction l with
  | nil => rfl
  | cons c cs ih =>
    rw [List.mem_cons, not_or] at h
    simp only [splitAtChar, if_neg (Ne.symm h.1), ih h.2]

/-- The part before the first separator is the first part. -/
theorem splitAtChar_append (sep : Char) (l m : List Char) (h : sep ∉ l) :
    splitAtChar sep (l ++ sep :: m) = l :: splitAtChar sep m := by
  induction l with
  | nil => simp [splitAtChar]
  | cons c cs ih =>
    rw [List.mem_cons, not_or] at h
    simp only [List.cons_append, splitAtChar, if_neg (Ne.symm h.1), ih h.2]

/-- A blank at the front is trimmed. -/
theorem trimBlanks_cons_blank (c : Char) (l : List Char) (h : isBlankChar c = true) :
    trimBlanks (c :: l) = trimBlanks l := by
  simp only [trimBlanks, List.dropWhile_cons, h, if_true]

/-- A text without blanks is left as it is. -/
theorem trimBlanks_of_no_blank (l : List Char) (h : ∀ c ∈ l, isBlankChar c = false) : trimBlanks l = l := by
  have key : ∀ m : List Char, (∀ c ∈ m, isBlankChar c = false) → m.dropWhile isBlankChar = m := by
    intro m hm
    cases m with
    | nil => rfl
    | cons c cs => simp only [List.dropWhile_cons, hm c List.mem_cons_self, Bool.false_eq_true, if_false]
  rw [trimBlanks, key l h, key l.reverse fun c hc => h c (List.mem_reverse.mp hc), List.reverse_reverse]

/-- A text that begins and ends with no blank is left as it is. -/
theorem trimBlanks_of_ends (c d : Char) (l : List Char) (hc : isBlankChar c = false) (hd : isBlankChar d = false) :
    trimBlanks (c :: (l ++ [d])) = c :: (l ++ [d]) := by
  have h1 : (c :: (l ++ [d])).dropWhile isBlankChar = c :: (l ++ [d]) := by
    simp only [List.dropWhile_cons, hc, Bool.false_eq_true, if_false]
  rw [trimBlanks, h1]
  have h2 : (c :: (l ++ [d])).reverse = d :: (l.reverse ++ [c]) := by simp
  rw [h2]
  simp [hd]

/-- A rendered register has no blank, comma, parenthesis in it. -/
theorem mem_renderReg {r : RegIdx} {c : Char} (h : c ∈ renderReg r) : c = '$' ∨ c = 's' ∨ c.isDigit = true := by
  simp only [renderReg, List.mem_cons] at h
  exact h.imp_right fun h => h.imp_right isDigit_of_mem_renderNat

/-- A rendered integer has only digits and a minus sign in it. -/
theorem mem_renderInt {n : Int} {c : Char} (h : c ∈ renderInt n) : c = '-' ∨ c.isDigit = true := by
  unfold renderInt at h
  split at h
  · exact (List.mem_cons.mp h).imp_right isDigit_of_mem_renderNat
  · exact .inr (isDigit_of_mem_renderNat h)

/-- A digit is neither a blank nor punctuation. -/
theorem not_blank_of_isDigit {c : Char} (h : c.isDigit = true) :
    isBlankChar c = false ∧ c ≠ ',' ∧ c ≠ '(' ∧ c ≠ ')' := by
  refine ⟨?_, ?_, ?_, ?_⟩
  · by_contra hb
    simp only [isBlankChar, Bool.not_eq_false, Bool.or_eq_true, beq_iff_eq] at hb
    rcases hb with (rfl | rfl) | rfl <;> exact absurd h (by decide)
  all_goals
    rintro rfl
    exact absurd h (by decide)

end Sys2Proof.Machine
end

