-- ==== Sys2Proof/Laws/Encoding.lean ====
section
/-! SUPPORT. The laws of the instruction word: the bits of each format, and each field read back from it. -/

namespace Sys2Proof

/-! ### The bits of the three formats (30_encoding.md R101) -/

theorem encodeR_getLsbD (opcode : BitVec 6) (rs rt rd : RegIdx) (funct : BitVec 6) (k : Nat) :
    (encodeR opcode rs rt rd funct).getLsbD k =
      if k < 6 then funct.getLsbD k
      else if k < 11 then false
      else if k < 16 then (BitVec.ofFin (w := 5) rd).getLsbD (k - 11)
      else if k < 21 then (BitVec.ofFin (w := 5) rt).getLsbD (k - 16)
      else if k < 26 then (BitVec.ofFin (w := 5) rs).getLsbD (k - 21)
      else opcode.getLsbD (k - 26) := by
  unfold encodeR
  rw [BitVec.getLsbD_append, BitVec.getLsbD_append, BitVec.getLsbD_append, BitVec.getLsbD_append,
    BitVec.getLsbD_append]
  simp only [BitVec.getLsbD_zero]
  repeat' split
  all_goals first
    | rfl
    | (exfalso; omega)

theorem encodeI_getLsbD (opcode : BitVec 6) (rs rt : RegIdx) (offset : Int) (k : Nat) :
    (encodeI opcode rs rt offset).getLsbD k =
      if k < 16 then (BitVec.ofInt 16 offset).getLsbD k
      else if k < 21 then (BitVec.ofFin (w := 5) rt).getLsbD (k - 16)
      else if k < 26 then (BitVec.ofFin (w := 5) rs).getLsbD (k - 21)
      else opcode.getLsbD (k - 26) := by
  unfold encodeI
  rw [BitVec.getLsbD_append, BitVec.getLsbD_append, BitVec.getLsbD_append]
  repeat' split
  all_goals first
    | rfl
    | (exfalso; omega)

theorem encodeJ_getLsbD (opcode : BitVec 6) (target : Nat) (k : Nat) :
    (encodeJ opcode target).getLsbD k =
      if k < 26 then (BitVec.ofNat 26 target).getLsbD k else opcode.getLsbD (k - 26) := by
  unfold encodeJ
  rw [BitVec.getLsbD_append]

/-! ### Fields read back (30_encoding.md R102) -/

/-- The field read at `start` is what the word's bits there spell. -/
theorem extractLsb'_eq_of_getLsbD {n : Nat} (w : Word) (start : Nat) (v : BitVec n)
    (h : ∀ k, k < n → w.getLsbD (start + k) = v.getLsbD k) : w.extractLsb' start n = v := by
  apply BitVec.eq_of_getLsbD_eq
  intro k hk
  rw [BitVec.getLsbD_extractLsb', h k hk]
  simp [hk]

theorem fieldRs_encodeR (opcode : BitVec 6) (rs rt rd : RegIdx) (funct : BitVec 6) :
    fieldRs (encodeR opcode rs rt rd funct) = rs := by
  have : (encodeR opcode rs rt rd funct).extractLsb' 21 5 = BitVec.ofFin rs := by
    refine extractLsb'_eq_of_getLsbD _ _ _ fun k hk => ?_
    rw [encodeR_getLsbD, if_neg (by omega), if_neg (by omega), if_neg (by omega), if_neg (by omega),
      if_pos (by omega), Nat.add_sub_cancel_left]
  rw [fieldRs, this]

theorem fieldRt_encodeR (opcode : BitVec 6) (rs rt rd : RegIdx) (funct : BitVec 6) :
    fieldRt (encodeR opcode rs rt rd funct) = rt := by
  have : (encodeR opcode rs rt rd funct).extractLsb' 16 5 = BitVec.ofFin rt := by
    refine extractLsb'_eq_of_getLsbD _ _ _ fun k hk => ?_
    rw [encodeR_getLsbD, if_neg (by omega), if_neg (by omega), if_neg (by omega), if_pos (by omega),
      Nat.add_sub_cancel_left]
  rw [fieldRt, this]

theorem fieldRd_encodeR (opcode : BitVec 6) (rs rt rd : RegIdx) (funct : BitVec 6) :
    fieldRd (encodeR opcode rs rt rd funct) = rd := by
  have : (encodeR opcode rs rt rd funct).extractLsb' 11 5 = BitVec.ofFin rd := by
    refine extractLsb'_eq_of_getLsbD _ _ _ fun k hk => ?_
    rw [encodeR_getLsbD, if_neg (by omega), if_neg (by omega), if_pos (by omega), Nat.add_sub_cancel_left]
  rw [fieldRd, this]

theorem fieldRs_encodeI (opcode : BitVec 6) (rs rt : RegIdx) (offset : Int) :
    fieldRs (encodeI opcode rs rt offset) = rs := by
  have : (encodeI opcode rs rt offset).extractLsb' 21 5 = BitVec.ofFin rs := by
    refine extractLsb'_eq_of_getLsbD _ _ _ fun k hk => ?_
    rw [encodeI_getLsbD, if_neg (by omega), if_neg (by omega), if_pos (by omega), Nat.add_sub_cancel_left]
  rw [fieldRs, this]

theorem fieldRt_encodeI (opcode : BitVec 6) (rs rt : RegIdx) (offset : Int) :
    fieldRt (encodeI opcode rs rt offset) = rt := by
  have : (encodeI opcode rs rt offset).extractLsb' 16 5 = BitVec.ofFin rt := by
    refine extractLsb'_eq_of_getLsbD _ _ _ fun k hk => ?_
    rw [encodeI_getLsbD, if_neg (by omega), if_pos (by omega), Nat.add_sub_cancel_left]
  rw [fieldRt, this]

theorem fieldOffset_encodeI (opcode : BitVec 6) (rs rt : RegIdx) (offset : Int) (h : offsetInRange offset = true) :
    fieldOffset (encodeI opcode rs rt offset) = offset := by
  have hbits : (encodeI opcode rs rt offset).extractLsb' 0 16 = BitVec.ofInt 16 offset := by
    refine extractLsb'_eq_of_getLsbD _ _ _ fun k hk => ?_
    rw [encodeI_getLsbD, if_pos (by omega), Nat.zero_add]
  simp only [offsetInRange, Bool.and_eq_true, decide_eq_true_eq] at h
  rw [fieldOffset, hbits, BitVec.toInt_ofInt, Int.bmod_eq_of_le] <;> norm_num <;> omega

theorem fieldTarget_encodeJ (opcode : BitVec 6) (target : Nat) (h : targetInRange target = true) :
    fieldTarget (encodeJ opcode target) = target := by
  have hbits : (encodeJ opcode target).extractLsb' 0 26 = BitVec.ofNat 26 target := by
    refine extractLsb'_eq_of_getLsbD _ _ _ fun k hk => ?_
    rw [encodeJ_getLsbD, if_pos (by omega), Nat.zero_add]
  simp only [targetInRange, decide_eq_true_eq] at h
  rw [fieldTarget, hbits, BitVec.toNat_ofNat, Nat.mod_eq_of_lt]
  norm_num
  omega

/-! ### Opcode and `funct` read back -/

/-- The opcode, bits 31:26. -/
theorem opcode_encodeR (opcode : BitVec 6) (rs rt rd : RegIdx) (funct : BitVec 6) :
    (encodeR opcode rs rt rd funct).extractLsb' 26 6 = opcode := by
  refine extractLsb'_eq_of_getLsbD _ _ _ fun k hk => ?_
  rw [encodeR_getLsbD, if_neg (by omega), if_neg (by omega), if_neg (by omega), if_neg (by omega), if_neg (by omega),
    Nat.add_sub_cancel_left]

theorem opcode_encodeI (opcode : BitVec 6) (rs rt : RegIdx) (offset : Int) :
    (encodeI opcode rs rt offset).extractLsb' 26 6 = opcode := by
  refine extractLsb'_eq_of_getLsbD _ _ _ fun k hk => ?_
  rw [encodeI_getLsbD, if_neg (by omega), if_neg (by omega), if_neg (by omega), Nat.add_sub_cancel_left]

theorem opcode_encodeJ (opcode : BitVec 6) (target : Nat) :
    (encodeJ opcode target).extractLsb' 26 6 = opcode := by
  refine extractLsb'_eq_of_getLsbD _ _ _ fun k hk => ?_
  rw [encodeJ_getLsbD, if_neg (by omega), Nat.add_sub_cancel_left]

/-- Bits 10:0 of an R-format word: the five zeros and `funct`. -/
theorem low11_encodeR (opcode : BitVec 6) (rs rt rd : RegIdx) (funct : BitVec 6) :
    (encodeR opcode rs rt rd funct).extractLsb' 0 11 = 0#5 ++ funct := by
  refine extractLsb'_eq_of_getLsbD _ _ _ fun k hk => ?_
  rw [encodeR_getLsbD, BitVec.getLsbD_append, Nat.zero_add]
  split
  · rfl
  · simp

/-! ### The two masks (30_encoding.md R103) read the opcode, and the opcode with bits 10:0 -/

/-- A row with the mask `0xFC000000` is selected exactly by its opcode. -/
theorem mask_opcode_iff (w : Word) (opcode : BitVec 6) :
    w &&& 0xFC000000#32 = opcode ++ 0#26 ↔ w.extractLsb' 26 6 = opcode := by
  constructor
  · intro h
    refine extractLsb'_eq_of_getLsbD _ _ _ fun k hk => ?_
    have hbit := congrArg (fun v : Word => v.getLsbD (26 + k)) h
    simp only [BitVec.getLsbD_and, BitVec.getLsbD_append, if_neg (show ¬ 26 + k < 26 by omega),
      Nat.add_sub_cancel_left] at hbit
    have hmask : (0xFC000000#32).getLsbD (26 + k) = true := by
      interval_cases k <;> rfl
    rw [← hbit, hmask, Bool.and_true]
  · intro h
    apply BitVec.eq_of_getLsbD_eq
    intro k hk
    rw [BitVec.getLsbD_and, BitVec.getLsbD_append, ← h, BitVec.getLsbD_extractLsb']
    split
    · rename_i hlow
      have hmask : (0xFC000000#32).getLsbD k = false := by
        interval_cases k <;> rfl
      simp [hmask]
    · rename_i hhigh
      have hmask : (0xFC000000#32).getLsbD k = true := by
        interval_cases k <;> rfl
      rw [hmask, Bool.and_true, show 26 + (k - 26) = k by omega]
      simp
      omega

/-- A row with the mask `0xFC0007FF` is selected exactly by its opcode and its bits 10:0. -/
theorem mask_opcode_low11_iff (w : Word) (opcode : BitVec 6) (low : BitVec 11) :
    w &&& 0xFC0007FF#32 = opcode ++ 0#15 ++ low ↔ w.extractLsb' 26 6 = opcode ∧ w.extractLsb' 0 11 = low := by
  constructor
  · intro h
    have hbit : ∀ k, (w.getLsbD k && (0xFC0007FF#32).getLsbD k) =
        if k < 11 then low.getLsbD k else if k - 11 < 15 then false else opcode.getLsbD (k - 11 - 15) := by
      intro k
      have := congrArg (fun v : Word => v.getLsbD k) h
      simpa only [BitVec.getLsbD_and, BitVec.getLsbD_append, BitVec.getLsbD_zero] using this
    refine ⟨extractLsb'_eq_of_getLsbD _ _ _ fun k hk => ?_, extractLsb'_eq_of_getLsbD _ _ _ fun k hk => ?_⟩
    · have hk' := hbit (26 + k)
      rw [if_neg (by omega), if_neg (by omega), show 26 + k - 11 - 15 = k by omega] at hk'
      have hmask : (0xFC0007FF#32).getLsbD (26 + k) = true := by
        interval_cases k <;> rfl
      rw [← hk', hmask, Bool.and_true]
    · have hk' := hbit k
      rw [if_pos hk] at hk'
      have hmask : (0xFC0007FF#32).getLsbD k = true := by
        interval_cases k <;> rfl
      rw [Nat.zero_add, ← hk', hmask, Bool.and_true]
  · rintro ⟨rfl, rfl⟩
    apply BitVec.eq_of_getLsbD_eq
    intro k hk
    rw [BitVec.getLsbD_and, BitVec.getLsbD_append, BitVec.getLsbD_append]
    simp only [BitVec.getLsbD_extractLsb', BitVec.getLsbD_zero]
    by_cases h1 : k < 11
    · have hmask : (0xFC0007FF#32).getLsbD k = true := by
        interval_cases k <;> rfl
      simp [h1, hmask]
    · by_cases h2 : k - 11 < 15
      · have hmask : (0xFC0007FF#32).getLsbD k = false := by
          have : k < 26 := by omega
          interval_cases k <;> first | omega | rfl
        simp [h1, h2, hmask]
      · have hmask : (0xFC0007FF#32).getLsbD k = true := by
          have : 26 ≤ k := by omega
          interval_cases k <;> rfl
        rw [if_neg h1, if_neg h2, hmask, Bool.and_true, show 26 + (k - 11 - 15) = k by omega]
        simp
        omega

end Sys2Proof
end

