-- ==== Sys2Proof/Laws/State.lean ====
section
/-! SUPPORT. One lemma per field per update of the state, so that no proof unfolds a record update. -/

namespace Sys2Proof.Machine

/-! ### `writeReg` -/

@[simp] theorem writeReg_regs (r : RegIdx) (v : Word) (s : State) : (writeReg r v s).regs = s.regs.set r.val v := rfl
@[simp] theorem writeReg_pc (r : RegIdx) (v : Word) (s : State) : (writeReg r v s).pc = s.pc := rfl
@[simp] theorem writeReg_mem (r : RegIdx) (v : Word) (s : State) : (writeReg r v s).mem = s.mem := rfl
@[simp] theorem writeReg_imem (r : RegIdx) (v : Word) (s : State) : (writeReg r v s).imem = s.imem := rfl
@[simp] theorem writeReg_ifSlot (r : RegIdx) (v : Word) (s : State) : (writeReg r v s).ifSlot = s.ifSlot := rfl
@[simp] theorem writeReg_idSlot (r : RegIdx) (v : Word) (s : State) : (writeReg r v s).idSlot = s.idSlot := rfl
@[simp] theorem writeReg_exSlot (r : RegIdx) (v : Word) (s : State) : (writeReg r v s).exSlot = s.exSlot := rfl
@[simp] theorem writeReg_memSlot (r : RegIdx) (v : Word) (s : State) : (writeReg r v s).memSlot = s.memSlot := rfl
@[simp] theorem writeReg_wbSlot (r : RegIdx) (v : Word) (s : State) : (writeReg r v s).wbSlot = s.wbSlot := rfl
@[simp] theorem writeReg_bp (r : RegIdx) (v : Word) (s : State) : (writeReg r v s).bp = s.bp := rfl
@[simp] theorem writeReg_stalled (r : RegIdx) (v : Word) (s : State) : (writeReg r v s).stalled = s.stalled := rfl
@[simp] theorem writeReg_cycle (r : RegIdx) (v : Word) (s : State) : (writeReg r v s).cycle = s.cycle := rfl
@[simp] theorem writeReg_stage (r : RegIdx) (v : Word) (s : State) : (writeReg r v s).stage = s.stage := rfl
@[simp] theorem writeReg_draws (r : RegIdx) (v : Word) (s : State) : (writeReg r v s).draws = s.draws := rfl
@[simp] theorem writeReg_params (r : RegIdx) (v : Word) (s : State) : (writeReg r v s).params = s.params := rfl

/-! ### `writeNothing` -/

@[simp] theorem writeNothing_regs (r : Word) (s : State) : (writeNothing r s).regs = s.regs := rfl
@[simp] theorem writeNothing_pc (r : Word) (s : State) : (writeNothing r s).pc = s.pc := rfl
@[simp] theorem writeNothing_mem (r : Word) (s : State) : (writeNothing r s).mem = s.mem := rfl
@[simp] theorem writeNothing_imem (r : Word) (s : State) : (writeNothing r s).imem = s.imem := rfl
@[simp] theorem writeNothing_ifSlot (r : Word) (s : State) : (writeNothing r s).ifSlot = s.ifSlot := rfl
@[simp] theorem writeNothing_idSlot (r : Word) (s : State) : (writeNothing r s).idSlot = s.idSlot := rfl
@[simp] theorem writeNothing_exSlot (r : Word) (s : State) : (writeNothing r s).exSlot = s.exSlot := rfl
@[simp] theorem writeNothing_memSlot (r : Word) (s : State) : (writeNothing r s).memSlot = s.memSlot := rfl
@[simp] theorem writeNothing_wbSlot (r : Word) (s : State) : (writeNothing r s).wbSlot = s.wbSlot := rfl
@[simp] theorem writeNothing_bp (r : Word) (s : State) : (writeNothing r s).bp = s.bp := rfl
@[simp] theorem writeNothing_stalled (r : Word) (s : State) : (writeNothing r s).stalled = s.stalled := rfl
@[simp] theorem writeNothing_cycle (r : Word) (s : State) : (writeNothing r s).cycle = s.cycle := rfl
@[simp] theorem writeNothing_stage (r : Word) (s : State) : (writeNothing r s).stage = s.stage := rfl
@[simp] theorem writeNothing_draws (r : Word) (s : State) : (writeNothing r s).draws = s.draws := rfl
@[simp] theorem writeNothing_params (r : Word) (s : State) : (writeNothing r s).params = s.params := rfl

/-! ### `setPc` -/

@[simp] theorem setPc_regs (t : Word) (s : State) : (setPc t s).regs = s.regs := rfl
@[simp] theorem setPc_pc (t : Word) (s : State) : (setPc t s).pc = t := rfl
@[simp] theorem setPc_mem (t : Word) (s : State) : (setPc t s).mem = s.mem := rfl
@[simp] theorem setPc_imem (t : Word) (s : State) : (setPc t s).imem = s.imem := rfl
@[simp] theorem setPc_ifSlot (t : Word) (s : State) : (setPc t s).ifSlot = s.ifSlot := rfl
@[simp] theorem setPc_idSlot (t : Word) (s : State) : (setPc t s).idSlot = s.idSlot := rfl
@[simp] theorem setPc_exSlot (t : Word) (s : State) : (setPc t s).exSlot = s.exSlot := rfl
@[simp] theorem setPc_memSlot (t : Word) (s : State) : (setPc t s).memSlot = s.memSlot := rfl
@[simp] theorem setPc_wbSlot (t : Word) (s : State) : (setPc t s).wbSlot = s.wbSlot := rfl
@[simp] theorem setPc_bp (t : Word) (s : State) : (setPc t s).bp = s.bp := rfl
@[simp] theorem setPc_stalled (t : Word) (s : State) : (setPc t s).stalled = s.stalled := rfl
@[simp] theorem setPc_cycle (t : Word) (s : State) : (setPc t s).cycle = s.cycle := rfl
@[simp] theorem setPc_stage (t : Word) (s : State) : (setPc t s).stage = s.stage := rfl
@[simp] theorem setPc_draws (t : Word) (s : State) : (setPc t s).draws = s.draws := rfl
@[simp] theorem setPc_params (t : Word) (s : State) : (setPc t s).params = s.params := rfl

/-! ### `advancePc` -/

@[simp] theorem advancePc_regs (s : State) : (advancePc s).regs = s.regs := rfl
@[simp] theorem advancePc_pc (s : State) : (advancePc s).pc = s.pc + 4 := rfl
@[simp] theorem advancePc_mem (s : State) : (advancePc s).mem = s.mem := rfl
@[simp] theorem advancePc_imem (s : State) : (advancePc s).imem = s.imem := rfl
@[simp] theorem advancePc_ifSlot (s : State) : (advancePc s).ifSlot = s.ifSlot := rfl
@[simp] theorem advancePc_idSlot (s : State) : (advancePc s).idSlot = s.idSlot := rfl
@[simp] theorem advancePc_exSlot (s : State) : (advancePc s).exSlot = s.exSlot := rfl
@[simp] theorem advancePc_memSlot (s : State) : (advancePc s).memSlot = s.memSlot := rfl
@[simp] theorem advancePc_wbSlot (s : State) : (advancePc s).wbSlot = s.wbSlot := rfl
@[simp] theorem advancePc_bp (s : State) : (advancePc s).bp = s.bp := rfl
@[simp] theorem advancePc_stalled (s : State) : (advancePc s).stalled = s.stalled := rfl
@[simp] theorem advancePc_cycle (s : State) : (advancePc s).cycle = s.cycle := rfl
@[simp] theorem advancePc_stage (s : State) : (advancePc s).stage = s.stage := rfl
@[simp] theorem advancePc_draws (s : State) : (advancePc s).draws = s.draws := rfl
@[simp] theorem advancePc_params (s : State) : (advancePc s).params = s.params := rfl

/-! ### `squashIf` -/

@[simp] theorem squashIf_regs (s : State) : (squashIf s).regs = s.regs := rfl
@[simp] theorem squashIf_pc (s : State) : (squashIf s).pc = s.pc := rfl
@[simp] theorem squashIf_mem (s : State) : (squashIf s).mem = s.mem := rfl
@[simp] theorem squashIf_imem (s : State) : (squashIf s).imem = s.imem := rfl
@[simp] theorem squashIf_ifSlot (s : State) : (squashIf s).ifSlot = some .nop := rfl
@[simp] theorem squashIf_idSlot (s : State) : (squashIf s).idSlot = s.idSlot := rfl
@[simp] theorem squashIf_exSlot (s : State) : (squashIf s).exSlot = s.exSlot := rfl
@[simp] theorem squashIf_memSlot (s : State) : (squashIf s).memSlot = s.memSlot := rfl
@[simp] theorem squashIf_wbSlot (s : State) : (squashIf s).wbSlot = s.wbSlot := rfl
@[simp] theorem squashIf_bp (s : State) : (squashIf s).bp = s.bp := rfl
@[simp] theorem squashIf_stalled (s : State) : (squashIf s).stalled = s.stalled := rfl
@[simp] theorem squashIf_cycle (s : State) : (squashIf s).cycle = s.cycle := rfl
@[simp] theorem squashIf_stage (s : State) : (squashIf s).stage = s.stage := rfl
@[simp] theorem squashIf_draws (s : State) : (squashIf s).draws = s.draws := rfl
@[simp] theorem squashIf_params (s : State) : (squashIf s).params = s.params := rfl

/-! ### `hazardPhase` -/

@[simp] theorem hazardPhase_regs (s : State) : (hazardPhase s).regs = s.regs := rfl
@[simp] theorem hazardPhase_pc (s : State) : (hazardPhase s).pc = s.pc := rfl
@[simp] theorem hazardPhase_mem (s : State) : (hazardPhase s).mem = s.mem := rfl
@[simp] theorem hazardPhase_imem (s : State) : (hazardPhase s).imem = s.imem := rfl
@[simp] theorem hazardPhase_ifSlot (s : State) : (hazardPhase s).ifSlot = s.ifSlot := rfl
@[simp] theorem hazardPhase_idSlot (s : State) : (hazardPhase s).idSlot = s.idSlot := rfl
@[simp] theorem hazardPhase_exSlot (s : State) : (hazardPhase s).exSlot = s.exSlot := rfl
@[simp] theorem hazardPhase_memSlot (s : State) : (hazardPhase s).memSlot = s.memSlot := rfl
@[simp] theorem hazardPhase_wbSlot (s : State) : (hazardPhase s).wbSlot = s.wbSlot := rfl
@[simp] theorem hazardPhase_bp (s : State) : (hazardPhase s).bp = s.bp := rfl
@[simp] theorem hazardPhase_stalled (s : State) : (hazardPhase s).stalled = hazardDetected s := rfl
@[simp] theorem hazardPhase_cycle (s : State) : (hazardPhase s).cycle = s.cycle := rfl
@[simp] theorem hazardPhase_stage (s : State) : (hazardPhase s).stage = s.stage := rfl
@[simp] theorem hazardPhase_draws (s : State) : (hazardPhase s).draws = s.draws := rfl
@[simp] theorem hazardPhase_params (s : State) : (hazardPhase s).params = s.params := rfl

/-! ### `tick` -/

@[simp] theorem tick_regs (s : State) : (tick s).regs = s.regs := rfl
@[simp] theorem tick_pc (s : State) : (tick s).pc = s.pc := rfl
@[simp] theorem tick_mem (s : State) : (tick s).mem = s.mem := rfl
@[simp] theorem tick_imem (s : State) : (tick s).imem = s.imem := rfl
@[simp] theorem tick_ifSlot (s : State) : (tick s).ifSlot = s.ifSlot := rfl
@[simp] theorem tick_idSlot (s : State) : (tick s).idSlot = s.idSlot := rfl
@[simp] theorem tick_exSlot (s : State) : (tick s).exSlot = s.exSlot := rfl
@[simp] theorem tick_memSlot (s : State) : (tick s).memSlot = s.memSlot := rfl
@[simp] theorem tick_wbSlot (s : State) : (tick s).wbSlot = s.wbSlot := rfl
@[simp] theorem tick_bp (s : State) : (tick s).bp = s.bp := rfl
@[simp] theorem tick_stalled (s : State) : (tick s).stalled = s.stalled := rfl
@[simp] theorem tick_cycle (s : State) : (tick s).cycle = s.cycle + 1 := rfl
@[simp] theorem tick_stage (s : State) : (tick s).stage = s.stage := rfl
@[simp] theorem tick_draws (s : State) : (tick s).draws = s.draws := rfl
@[simp] theorem tick_params (s : State) : (tick s).params = s.params := rfl

/-! ### `dataWrite` -/

@[simp] theorem dataWrite_regs (a : Int) (v : Word) (s : State) : (dataWrite a v s).regs = s.regs := by unfold dataWrite; split <;> rfl
@[simp] theorem dataWrite_pc (a : Int) (v : Word) (s : State) : (dataWrite a v s).pc = s.pc := by unfold dataWrite; split <;> rfl
@[simp] theorem dataWrite_mem (a : Int) (v : Word) (s : State) : (dataWrite a v s).mem = if validDAddr a then s.mem.writeWord a.toNat v else s.mem := by unfold dataWrite; split <;> rfl
@[simp] theorem dataWrite_imem (a : Int) (v : Word) (s : State) : (dataWrite a v s).imem = s.imem := by unfold dataWrite; split <;> rfl
@[simp] theorem dataWrite_ifSlot (a : Int) (v : Word) (s : State) : (dataWrite a v s).ifSlot = s.ifSlot := by unfold dataWrite; split <;> rfl
@[simp] theorem dataWrite_idSlot (a : Int) (v : Word) (s : State) : (dataWrite a v s).idSlot = s.idSlot := by unfold dataWrite; split <;> rfl
@[simp] theorem dataWrite_exSlot (a : Int) (v : Word) (s : State) : (dataWrite a v s).exSlot = s.exSlot := by unfold dataWrite; split <;> rfl
@[simp] theorem dataWrite_memSlot (a : Int) (v : Word) (s : State) : (dataWrite a v s).memSlot = s.memSlot := by unfold dataWrite; split <;> rfl
@[simp] theorem dataWrite_wbSlot (a : Int) (v : Word) (s : State) : (dataWrite a v s).wbSlot = s.wbSlot := by unfold dataWrite; split <;> rfl
@[simp] theorem dataWrite_bp (a : Int) (v : Word) (s : State) : (dataWrite a v s).bp = s.bp := by unfold dataWrite; split <;> rfl
@[simp] theorem dataWrite_stalled (a : Int) (v : Word) (s : State) : (dataWrite a v s).stalled = s.stalled := by unfold dataWrite; split <;> rfl
@[simp] theorem dataWrite_cycle (a : Int) (v : Word) (s : State) : (dataWrite a v s).cycle = s.cycle := by unfold dataWrite; split <;> rfl
@[simp] theorem dataWrite_stage (a : Int) (v : Word) (s : State) : (dataWrite a v s).stage = s.stage := by unfold dataWrite; split <;> rfl
@[simp] theorem dataWrite_draws (a : Int) (v : Word) (s : State) : (dataWrite a v s).draws = s.draws := by unfold dataWrite; split <;> rfl
@[simp] theorem dataWrite_params (a : Int) (v : Word) (s : State) : (dataWrite a v s).params = s.params := by unfold dataWrite; split <;> rfl

/-! ### `forwardingPhase` -/

@[simp] theorem forwardingPhase_regs (s : State) : (forwardingPhase s).regs = s.regs := by unfold forwardingPhase; split <;> simp [*]
@[simp] theorem forwardingPhase_pc (s : State) : (forwardingPhase s).pc = s.pc := by unfold forwardingPhase; split <;> simp [*]
@[simp] theorem forwardingPhase_mem (s : State) : (forwardingPhase s).mem = s.mem := by unfold forwardingPhase; split <;> simp [*]
@[simp] theorem forwardingPhase_imem (s : State) : (forwardingPhase s).imem = s.imem := by unfold forwardingPhase; split <;> simp [*]
@[simp] theorem forwardingPhase_ifSlot (s : State) : (forwardingPhase s).ifSlot = s.ifSlot := by unfold forwardingPhase; split <;> simp [*]
@[simp] theorem forwardingPhase_idSlot (s : State) : (forwardingPhase s).idSlot = s.idSlot.map fun d => forwardFrom s.exSlot (forwardFrom s.memSlot d) := by unfold forwardingPhase; split <;> simp [*]
@[simp] theorem forwardingPhase_exSlot (s : State) : (forwardingPhase s).exSlot = s.exSlot := by unfold forwardingPhase; split <;> simp [*]
@[simp] theorem forwardingPhase_memSlot (s : State) : (forwardingPhase s).memSlot = s.memSlot := by unfold forwardingPhase; split <;> simp [*]
@[simp] theorem forwardingPhase_wbSlot (s : State) : (forwardingPhase s).wbSlot = s.wbSlot := by unfold forwardingPhase; split <;> simp [*]
@[simp] theorem forwardingPhase_bp (s : State) : (forwardingPhase s).bp = s.bp := by unfold forwardingPhase; split <;> simp [*]
@[simp] theorem forwardingPhase_stalled (s : State) : (forwardingPhase s).stalled = s.stalled := by unfold forwardingPhase; split <;> simp [*]
@[simp] theorem forwardingPhase_cycle (s : State) : (forwardingPhase s).cycle = s.cycle := by unfold forwardingPhase; split <;> simp [*]
@[simp] theorem forwardingPhase_stage (s : State) : (forwardingPhase s).stage = s.stage := by unfold forwardingPhase; split <;> simp [*]
@[simp] theorem forwardingPhase_draws (s : State) : (forwardingPhase s).draws = s.draws := by unfold forwardingPhase; split <;> simp [*]
@[simp] theorem forwardingPhase_params (s : State) : (forwardingPhase s).params = s.params := by unfold forwardingPhase; split <;> simp [*]

/-! ### `ifPhase` -/

@[simp] theorem ifPhase_regs (s : State) : (ifPhase s).regs = s.regs := by unfold ifPhase; split <;> simp [*]
@[simp] theorem ifPhase_pc (s : State) : (ifPhase s).pc = s.pc := by unfold ifPhase; split <;> simp [*]
@[simp] theorem ifPhase_mem (s : State) : (ifPhase s).mem = s.mem := by unfold ifPhase; split <;> simp [*]
@[simp] theorem ifPhase_imem (s : State) : (ifPhase s).imem = s.imem := by unfold ifPhase; split <;> simp [*]
@[simp] theorem ifPhase_ifSlot (s : State) : (ifPhase s).ifSlot = if s.stalled then s.ifSlot else iFetch s s.pc := by unfold ifPhase; split <;> simp [*]
@[simp] theorem ifPhase_idSlot (s : State) : (ifPhase s).idSlot = s.idSlot := by unfold ifPhase; split <;> simp [*]
@[simp] theorem ifPhase_exSlot (s : State) : (ifPhase s).exSlot = s.exSlot := by unfold ifPhase; split <;> simp [*]
@[simp] theorem ifPhase_memSlot (s : State) : (ifPhase s).memSlot = s.memSlot := by unfold ifPhase; split <;> simp [*]
@[simp] theorem ifPhase_wbSlot (s : State) : (ifPhase s).wbSlot = s.wbSlot := by unfold ifPhase; split <;> simp [*]
@[simp] theorem ifPhase_bp (s : State) : (ifPhase s).bp = s.bp := by unfold ifPhase; split <;> simp [*]
@[simp] theorem ifPhase_stalled (s : State) : (ifPhase s).stalled = s.stalled := by unfold ifPhase; split <;> simp [*]
@[simp] theorem ifPhase_cycle (s : State) : (ifPhase s).cycle = s.cycle := by unfold ifPhase; split <;> simp [*]
@[simp] theorem ifPhase_stage (s : State) : (ifPhase s).stage = s.stage := by unfold ifPhase; split <;> simp [*]
@[simp] theorem ifPhase_draws (s : State) : (ifPhase s).draws = s.draws := by unfold ifPhase; split <;> simp [*]
@[simp] theorem ifPhase_params (s : State) : (ifPhase s).params = s.params := by unfold ifPhase; split <;> simp [*]

end Sys2Proof.Machine
end

