-- ==== Sys2Proof/Laws/Store.lean ====
section
/-! SUPPORT. The laws of the three maps: read after write, and that every operation keeps the canonical form. -/

namespace Sys2Proof.Machine

variable {α : Type}

/-! ### Read after write -/

theorem lookupAt_insertAt (a b : Nat) (x : α) (m : List (Nat × α)) :
    lookupAt (insertAt a x m) b = if b = a then some x else lookupAt m b := by
  induction m with
  | nil => simp [insertAt, lookupAt]
  | cons e m ih =>
    obtain ⟨k, v⟩ := e
    simp only [insertAt]
    split
    · simp [lookupAt]
    · split
      · subst k
        simp only [lookupAt]
        split <;> rfl
      · simp only [lookupAt, ih]
        split
        · subst b
          rw [if_neg]
          omega
        · rfl

theorem lookupAt_eraseAt (a b : Nat) (m : List (Nat × α)) :
    lookupAt (eraseAt a m) b = if b = a then none else lookupAt m b := by
  induction m with
  | nil => simp [eraseAt, lookupAt]
  | cons e m ih =>
    obtain ⟨k, v⟩ := e
    simp only [eraseAt] at ih
    by_cases hk : k = a
    · subst hk
      simp only [eraseAt, List.filter_cons, ne_eq, not_true_eq_false, decide_false, Bool.false_eq_true, if_false, ih,
        lookupAt]
      split <;> simp_all
    · simp only [eraseAt, List.filter_cons, ne_eq, hk, not_false_eq_true, decide_true, if_true, lookupAt, ih]
      by_cases hb : b = k
      · subst hb
        simp [hk]
      · simp [hb]

theorem readWord_writeWord (m : Memory) (a b : Nat) (v : Word) :
    (m.writeWord a v).readWord b = if b = a then v else m.readWord b := by
  unfold Memory.writeWord Memory.readWord
  split
  · rw [lookupAt_eraseAt]
    split <;> simp [*]
  · rw [lookupAt_insertAt]
    split <;> simp [*]

/-! ### Entries -/

theorem mem_of_lookupAt {m : List (Nat × α)} {a : Nat} {x : α} (h : lookupAt m a = some x) : (a, x) ∈ m := by
  induction m with
  | nil => simp [lookupAt] at h
  | cons e m ih =>
    obtain ⟨k, v⟩ := e
    simp only [lookupAt] at h
    split at h
    · cases h
      subst a
      exact List.mem_cons_self
    · exact List.mem_cons_of_mem _ (ih h)

theorem mem_insertAt {a : Nat} {x : α} {m : List (Nat × α)} {e : Nat × α} (h : e ∈ insertAt a x m) :
    e = (a, x) ∨ e ∈ m := by
  induction m with
  | nil => simpa [insertAt] using h
  | cons d m ih =>
    obtain ⟨k, v⟩ := d
    simp only [insertAt] at h
    split at h
    · simpa using h
    · split at h
      · rcases List.mem_cons.mp h with h | h
        · exact .inl h
        · exact .inr (List.mem_cons_of_mem _ h)
      · rcases List.mem_cons.mp h with h | h
        · exact .inr (h ▸ List.mem_cons_self)
        · exact (ih h).imp_right (List.mem_cons_of_mem _)

theorem mem_of_mem_eraseAt {a : Nat} {m : List (Nat × α)} {e : Nat × α} (h : e ∈ eraseAt a m) : e ∈ m :=
  (List.mem_filter.mp h).1

/-! ### The canonical form is kept -/

theorem keysAscend_insertAt (a : Nat) (x : α) {m : List (Nat × α)} (h : keysAscend m) :
    keysAscend (insertAt a x m) := by
  induction m with
  | nil => simp [insertAt]
  | cons e m ih =>
    obtain ⟨k, v⟩ := e
    obtain ⟨hk, hm⟩ := List.pairwise_cons.mp h
    simp only [insertAt]
    split
    · refine List.pairwise_cons.mpr ⟨fun f hf => ?_, h⟩
      rcases List.mem_cons.mp hf with rfl | hf
      · assumption
      · exact Nat.lt_trans ‹a < k› (hk f hf)
    · split
      · subst k
        exact List.pairwise_cons.mpr ⟨fun f hf => hk f hf, hm⟩
      · refine List.pairwise_cons.mpr ⟨fun f hf => ?_, ih hm⟩
        rcases mem_insertAt hf with rfl | hf
        · show k < a
          omega
        · exact hk f hf

theorem keysAscend_eraseAt (a : Nat) {m : List (Nat × α)} (h : keysAscend m) : keysAscend (eraseAt a m) :=
  h.filter _

theorem Memory.wf_nil : Memory.wf [] := ⟨List.Pairwise.nil, by simp⟩

/-- Writing a word at a valid address keeps the canonical form of data memory. -/
theorem Memory.wf_writeWord {m : Memory} (h : m.wf) (a : Nat) (v : Word) (ha : validDAddr a = true) :
    (m.writeWord a v).wf := by
  unfold Memory.writeWord
  split
  · exact ⟨keysAscend_eraseAt a h.1, fun e he => h.2 e (mem_of_mem_eraseAt he)⟩
  · refine ⟨keysAscend_insertAt a v h.1, fun e he => ?_⟩
    rcases mem_insertAt he with rfl | he
    · exact ⟨by assumption, ha⟩
    · exact h.2 e he

theorem InstrStore.wf_nil (p : Params) : InstrStore.wf p [] := ⟨List.Pairwise.nil, by simp⟩

/-- Storing, or making a hole, keeps the canonical form of the instruction store. -/
theorem InstrStore.wf_put {p : Params} {m : InstrStore} (h : m.wf p) (a : Nat) (o : Option Instr) :
    (m.put p a o).wf p := by
  have herase : InstrStore.wf p (eraseAt a m) :=
    ⟨keysAscend_eraseAt a h.1, fun e he => h.2 e (mem_of_mem_eraseAt he)⟩
  unfold InstrStore.put
  split
  · split
    · rename_i hc
      rw [Bool.and_eq_true] at hc
      refine ⟨keysAscend_insertAt a _ h.1, fun e he => ?_⟩
      rcases mem_insertAt he with rfl | he
      · exact hc
      · exact h.2 e he
    · exact herase
  · exact herase

/-- What the store fetches is one of its entries. -/
theorem InstrStore.mem_of_fetch {p : Params} {m : InstrStore} {a : Nat} {i : Instr} (h : m.fetch p a = some i) :
    (a, i) ∈ m := by
  unfold InstrStore.fetch at h
  split at h
  · exact mem_of_lookupAt h
  · cases h

theorem InstrStore.fetch_put (p : Params) (m : InstrStore) (a b : Nat) (o : Option Instr) :
    (m.put p a o).fetch p b = if b = a then (if storableAt p a then o.filter (·.wf) else none) else m.fetch p b := by
  unfold InstrStore.fetch InstrStore.put
  by_cases hb : b = a
  · subst hb
    cases o with
    | none => simp [lookupAt_eraseAt]
    | some i => by_cases hs : storableAt p b <;> by_cases hi : i.wf <;> simp [hs, hi, lookupAt_insertAt, lookupAt_eraseAt, Option.filter]
  · cases o with
    | none => simp [hb, lookupAt_eraseAt]
    | some i =>
      by_cases hs : (storableAt p a && i.wf) = true <;> simp [hb, hs, lookupAt_insertAt, lookupAt_eraseAt]

theorem PredTable.wf_nil : PredTable.wf [] := ⟨List.Pairwise.nil, by simp⟩

theorem PredTable.wf_insertAt {t : PredTable} (h : t.wf) (a : Nat) (c : Counter) (ha : a % 4 = 0) (hb : a < 2 ^ 32) :
    PredTable.wf (insertAt a c t) := by
  refine ⟨keysAscend_insertAt a c h.1, fun e he => ?_⟩
  rcases mem_insertAt he with rfl | he
  · exact ⟨ha, hb⟩
  · exact h.2 e he

/-- The lazy initialisation keeps the canonical form of the predictor table. -/
theorem PredTable.wf_bpEnsure {t : PredTable} (h : t.wf) (a : Nat) (ha : a % 4 = 0) (hb : a < 2 ^ 32) :
    PredTable.wf (bpEnsure a t) := by
  unfold bpEnsure
  split
  · exact h
  · exact PredTable.wf_insertAt h a _ ha hb

/-- `update` keeps the canonical form of the predictor table. -/
theorem PredTable.wf_update {t : PredTable} (h : t.wf) (a : Nat) (taken : Bool) (ha : a % 4 = 0) (hb : a < 2 ^ 32) :
    PredTable.wf (update a taken t) :=
  PredTable.wf_insertAt (PredTable.wf_bpEnsure h a ha hb) a _ ha hb

/-! ### The predictor table -/

theorem lookupAt_bpEnsure (a b : Nat) (t : PredTable) :
    lookupAt (bpEnsure a t) b = if b = a then some (bpCounter a t) else lookupAt t b := by
  unfold bpEnsure bpCounter
  cases h : lookupAt t a with
  | none => simp [lookupAt_insertAt]
  | some c =>
    by_cases hb : b = a
    · subst hb
      simp [h]
    · simp [hb]

@[simp] theorem bpCounter_bpEnsure (a : Nat) (t : PredTable) : bpCounter a (bpEnsure a t) = bpCounter a t := by
  rw [bpCounter, lookupAt_bpEnsure, if_pos rfl, Option.getD_some]

end Sys2Proof.Machine
end

