-- ==== Sys2Proof/Laws/Ops.lean ====
section
/-! SUPPORT. The laws of the named operations: what each shared operation can do, said once. -/

namespace Sys2Proof.Machine

/-- A register read after a register write. -/
theorem readReg_writeReg (s : State) (r q : RegIdx) (v : Word) :
    readReg (writeReg r v s) q = if q = r then v else readReg s q := by
  unfold readReg
  rw [writeReg_regs, Vector.getElem_set]
  by_cases h : q = r
  · simp [h]
  · rw [if_neg h, if_neg (fun hv => h (Fin.ext hv.symm))]

/-- A data read after a data write: the written word at its address, every other word as before. -/
theorem dataRead_dataWrite (s : State) (a b : Int) (v : Word) (ha : validDAddr a = true) :
    dataRead b (dataWrite a v s) = if b = a then some v else dataRead b s := by
  unfold dataRead
  rw [dataWrite_mem, if_pos ha]
  by_cases hb : validDAddr b = true
  · rw [if_pos hb, readWord_writeWord]
    have h0 : 0 ≤ a ∧ 0 ≤ b := by
      simp [validDAddr] at ha hb
      omega
    by_cases h : b = a
    · simp [h]
    · rw [if_neg (by omega), if_neg h, if_pos hb]
  · have : b ≠ a := fun h => hb (h ▸ ha)
    simp [hb, this]

/-- A write at an invalid address does nothing (20_memory.md R67, R68). -/
theorem dataWrite_invalid (s : State) (a : Int) (v : Word) (ha : validDAddr a = false) : dataWrite a v s = s := by
  simp [dataWrite, ha]

/-- A data write keeps the canonical form of memory. -/
theorem dataWrite_mem_wf (s : State) (a : Int) (v : Word) (h : s.mem.wf) : (dataWrite a v s).mem.wf := by
  rw [dataWrite_mem]
  split
  · rename_i ha
    refine Memory.wf_writeWord h _ _ ?_
    have : ((a.toNat : Nat) : Int) = a := by
      simp [validDAddr] at ha
      omega
    rw [this]
    exact ha
  · exact h

/-! ### The access of a load: everything it can do -/

theorem loadWordAccess_valid (rs : RegIdx) (offset : Int) (r : Word) (s : State)
    (h : validDAddr (effectiveAddr s rs offset) = true) :
    loadWordAccess rs offset r s = (s.mem.readWord (effectiveAddr s rs offset).toNat, s) := by
  simp [loadWordAccess, dataRead, h]

theorem loadWordAccess_invalid (rs : RegIdx) (offset : Int) (r : Word) (s : State)
    (h : validDAddr (effectiveAddr s rs offset) = false) :
    loadWordAccess rs offset r s = (Config.unspec32 s.draws, { s with draws := s.draws + 1 }) := by
  simp [loadWordAccess, dataRead, h, drawUnspec]

/-! ### Forwarding: everything it can do to a cached value -/

/-- The value forwarding from one slot gives to a field: the slot's result if it holds an R-type with that `rd`. -/
theorem forwardFrom_some (p : Payload) (d : IdPayload) :
    forwardFrom (some p) d =
      { instr := d.instr
        rsValue := if rdOf p.instr ≠ none ∧ rsOf d.instr = rdOf p.instr then p.result else d.rsValue
        rtValue := if rdOf p.instr ≠ none ∧ rtOf d.instr = rdOf p.instr then p.result else d.rtValue } := by
  cases h : rdOf p.instr <;> simp [forwardFrom, h]

@[simp] theorem forwardFrom_none (d : IdPayload) : forwardFrom none d = d := rfl

/-- Forwarding never changes which instruction is in ID (41_forwarding.md R180). -/
@[simp] theorem forwardFrom_instr (o : Option Payload) (d : IdPayload) : (forwardFrom o d).instr = d.instr := by
  cases o with
  | none => rfl
  | some p => rw [forwardFrom_some]

end Sys2Proof.Machine
end

