-- ==== Sys2Proof/Laws/PerInstr.lean ====
section
/-! SUPPORT. Laws per instruction, one lemma per constructor. -/

namespace Sys2Proof.Laws.EncodedRow

open Sys2Proof

/-- The row of the opcode map (30_encoding.md R103) an instruction belongs to. -/
def rowOf : Instr → OpcodeRow
  | .add _ _ _ => rowAdd
  | .sub _ _ _ => rowSub
  | .mul _ _ _ => rowMul
  | .lw _ _ _  => rowLw
  | .sw _ _ _  => rowSw
  | .beq _ _ _ => rowBeq
  | .j _       => rowJ
  | .nop       => rowNop

/-- The word of a well-formed instruction selects that instruction's row, which reads every field back. -/
def Statement (i : Instr) : Prop :=
  i.wf = true → (rowOf i).selects (encode i) = true ∧ (rowOf i).build (encode i) = i

/-- A row with the R-format mask selects an R-format word with its opcode and `funct`. -/
theorem selects_encodeR (r : OpcodeRow) (opcode : BitVec 6) (rs rt rd : RegIdx) (funct : BitVec 6)
    (hm : r.mask = 0xFC0007FF#32) (hp : r.pattern = opcode ++ 0#15 ++ (0#5 ++ funct)) :
    r.selects (encodeR opcode rs rt rd funct) = true := by
  rw [OpcodeRow.selects, beq_iff_eq, hm, hp, mask_opcode_low11_iff]
  exact ⟨opcode_encodeR .., low11_encodeR ..⟩

/-- A row with the opcode mask selects an I-format word with its opcode. -/
theorem selects_encodeI (r : OpcodeRow) (opcode : BitVec 6) (rs rt : RegIdx) (offset : Int)
    (hm : r.mask = 0xFC000000#32) (hp : r.pattern = opcode ++ 0#26) :
    r.selects (encodeI opcode rs rt offset) = true := by
  rw [OpcodeRow.selects, beq_iff_eq, hm, hp, mask_opcode_iff]
  exact opcode_encodeI ..

theorem add (rd rs rt : RegIdx) : Statement (.add rd rs rt) := fun _ =>
  ⟨selects_encodeR rowAdd _ _ _ _ _ rfl (by decide),
    by simp only [rowOf, rowAdd, encode, fieldRd_encodeR, fieldRs_encodeR, fieldRt_encodeR]⟩

theorem sub (rd rs rt : RegIdx) : Statement (.sub rd rs rt) := fun _ =>
  ⟨selects_encodeR rowSub _ _ _ _ _ rfl (by decide),
    by simp only [rowOf, rowSub, encode, fieldRd_encodeR, fieldRs_encodeR, fieldRt_encodeR]⟩

theorem mul (rd rs rt : RegIdx) : Statement (.mul rd rs rt) := fun _ =>
  ⟨selects_encodeR rowMul _ _ _ _ _ rfl (by decide),
    by simp only [rowOf, rowMul, encode, fieldRd_encodeR, fieldRs_encodeR, fieldRt_encodeR]⟩

theorem lw (rs rt : RegIdx) (offset : Int) : Statement (.lw rs rt offset) := fun h =>
  ⟨selects_encodeI rowLw _ _ _ _ rfl (by decide),
    by simp only [rowOf, rowLw, encode, fieldRs_encodeI, fieldRt_encodeI, fieldOffset_encodeI _ _ _ _ h]⟩

theorem sw (rs rt : RegIdx) (offset : Int) : Statement (.sw rs rt offset) := fun h =>
  ⟨selects_encodeI rowSw _ _ _ _ rfl (by decide),
    by simp only [rowOf, rowSw, encode, fieldRs_encodeI, fieldRt_encodeI, fieldOffset_encodeI _ _ _ _ h]⟩

theorem beq (rs rt : RegIdx) (offset : Int) : Statement (.beq rs rt offset) := fun h =>
  ⟨selects_encodeI rowBeq _ _ _ _ rfl (by decide),
    by simp only [rowOf, rowBeq, encode, fieldRs_encodeI, fieldRt_encodeI, fieldOffset_encodeI _ _ _ _ h]⟩

theorem j (target : Nat) : Statement (.j target) := fun h => by
  refine ⟨?_, by simp only [rowOf, rowJ, encode, fieldTarget_encodeJ _ _ h]⟩
  have hp : rowJ.pattern = 0b000010#6 ++ 0#26 := by decide
  rw [OpcodeRow.selects, beq_iff_eq, rowOf, hp]
  exact (mask_opcode_iff _ _).mpr (opcode_encodeJ ..)

theorem nop : Statement .nop := fun _ => by decide

end Sys2Proof.Laws.EncodedRow
end

