-- ==== Sys2Proof/Laws/Step.lean ====
section
/-! SUPPORT. What an instruction and a step can do, said once: `exec` never stops, and a step is one pure function of the
state, phase by phase. Later proofs cite these and unfold neither `exec` nor `step`. -/

namespace Sys2Proof.Machine

/-- The arms of each instruction (40_engine_step.md section 9), gathered for proofs. -/
def armsOf : Instr → PhaseArms
  | .add rd _ _ => rTypeArms rd addResult
  | .sub rd _ _ => rTypeArms rd subResult
  | .mul rd _ _ => rTypeArms rd mulResult
  | .lw rs rt offset =>
    { control := advancePc, exResult := noResult, memAccess := loadWordAccess rs offset, wbWrite := writeReg rt }
  | .sw rs rt offset =>
    { control := advancePc, exResult := noResult, memAccess := storeWordAccess rs rt offset, wbWrite := writeNothing }
  | .beq rs rt offset =>
    { control := beqControl rs rt offset, exResult := beqResult, memAccess := passThrough, wbWrite := writeNothing }
  | .j target =>
    { control := jControl target, exResult := noResult, memAccess := passThrough, wbWrite := writeNothing }
  | .nop => { control := advancePc, exResult := noResult, memAccess := passThrough, wbWrite := writeNothing }

/-- Every instruction acts by its arms in the phase the state names, and the machine goes on. -/
theorem exec_eq (i : Instr) (s : State) : exec i s = .next (actArms i (armsOf i) s) := by cases i <;> rfl

/-- One phase as a pure function: the instruction in the slot it consumes acts. -/
def phaseState (st : Stage) (s : State) : State :=
  match stageInstr st s with
  | some i => actArms i (armsOf i) { s with stage := st }
  | none   => { s with stage := st }

theorem runStage_eq (st : Stage) (s : State) : runStage st s = .next (phaseState st s) := by
  unfold runStage phaseState
  cases stageInstr st s with
  | none => rfl
  | some i => exact exec_eq i _

/-- The step as a pure function: its phases in order (40_engine_step.md R141). -/
def cycleState (s : State) : State :=
  tick (ifPhase (phaseState .id (phaseState .ex (phaseState .mem (phaseState .wb (hazardPhase (forwardingPhase s)))))))

/-- A step answers the state its phases leave, and nothing else. -/
theorem step_eq (s : State) : step s = .next (cycleState s) := by
  unfold step engineStep cycleState
  simp only [runStage_eq, andThen]

/-- The inversion lemma of the step. -/
theorem step_next {s t : State} (h : step s = .next t) : t = cycleState s := by
  rw [step_eq] at h
  cases h
  rfl

/-! ### The step field by field

The parts of the state a step writes, each as a function of the state it is computed from, and the four phases as record
updates with those parts: a proof about a step cites `cycleState_eq` and unfolds nothing. -/

/-- The register file after the WB phase. -/
def regsAfterWb (s : State) : Vector Word 32 :=
  match s.memSlot with
  | none => s.regs
  | some p =>
    match p.instr with
    | .add rd _ _ => s.regs.set rd.val p.result
    | .sub rd _ _ => s.regs.set rd.val p.result
    | .mul rd _ _ => s.regs.set rd.val p.result
    | .lw _ rt _  => s.regs.set rt.val p.result
    | .sw _ _ _ | .beq _ _ _ | .j _ | .nop => s.regs

/-- The WB slot after the WB phase. -/
def wbSlotAfter (s : State) : Option Payload :=
  match s.memSlot with
  | none   => s.wbSlot
  | some p => some p

/-- The WB phase writes `regs`, `wbSlot`, `memSlot` and nothing else of the machine. -/
theorem phaseState_wb (s : State) :
    phaseState .wb s = { s with regs := regsAfterWb s, wbSlot := wbSlotAfter s, memSlot := none, stage := .wb } := by
  unfold regsAfterWb wbSlotAfter
  cases h : s.memSlot with
  | none =>
    cases s
    cases h
    rfl
  | some p =>
    obtain ⟨i, r⟩ := p
    simp only [phaseState, stageInstr, h, Option.map_some, actArms, wbPhase]
    cases i <;> rfl

/-- The MEM payload the MEM phase makes. -/
def memSlotAfter (s : State) : Option Payload :=
  match s.exSlot with
  | none => s.memSlot
  | some p =>
    match p.instr with
    | .lw rs _ offset =>
      some { instr := p.instr
             result := if validDAddr (effectiveAddr s rs offset) then s.mem.readWord (effectiveAddr s rs offset).toNat
               else Config.unspec32 s.draws }
    | .add _ _ _ | .sub _ _ _ | .mul _ _ _ | .sw _ _ _ | .beq _ _ _ | .j _ | .nop => some p

/-- Data memory after the MEM phase. -/
def memoryAfter (s : State) : Memory :=
  match s.exSlot with
  | none => s.mem
  | some p =>
    match p.instr with
    | .sw rs rt offset =>
      if validDAddr (effectiveAddr s rs offset) then s.mem.writeWord (effectiveAddr s rs offset).toNat (readReg s rt)
      else s.mem
    | .add _ _ _ | .sub _ _ _ | .mul _ _ _ | .lw _ _ _ | .beq _ _ _ | .j _ | .nop => s.mem

/-- The number of draws after the MEM phase. -/
def drawsAfter (s : State) : Nat :=
  match s.exSlot with
  | none => s.draws
  | some p =>
    match p.instr with
    | .lw rs _ offset => if validDAddr (effectiveAddr s rs offset) then s.draws else s.draws + 1
    | .add _ _ _ | .sub _ _ _ | .mul _ _ _ | .sw _ _ _ | .beq _ _ _ | .j _ | .nop => s.draws

/-- The MEM phase writes `mem`, `memSlot`, `exSlot`, `draws` and nothing else of the machine. -/
theorem phaseState_mem (s : State) :
    phaseState .mem s =
      { s with mem := memoryAfter s, memSlot := memSlotAfter s, exSlot := none, draws := drawsAfter s, stage := .mem } := by
  unfold memoryAfter memSlotAfter drawsAfter
  cases h : s.exSlot with
  | none =>
    cases s
    cases h
    rfl
  | some p =>
    obtain ⟨i, r⟩ := p
    simp only [phaseState, stageInstr, h, Option.map_some, actArms, memPhase]
    cases i with
    | lw rs rt offset =>
      simp only [armsOf, loadWordAccess, dataRead, drawUnspec, effectiveAddr, readReg]
      by_cases hv : validDAddr (signed s.regs[rs.val] + offset) = true <;> simp [hv]
    | sw rs rt offset =>
      simp only [armsOf, storeWordAccess, dataWrite, effectiveAddr, readReg]
      by_cases hv : validDAddr (signed s.regs[rs.val] + offset) = true <;> simp [hv]
    | _ => rfl

/-- The result the EX phase computes. -/
def exResultOf (p : IdPayload) : Word := (armsOf p.instr).exResult p.rsValue p.rtValue

/-- The EX payload the EX phase makes. -/
def exSlotAfter (s : State) : Option Payload :=
  match s.idSlot with
  | none   => s.exSlot
  | some p => some { instr := p.instr, result := exResultOf p }

/-- The EX phase writes `exSlot`, `idSlot` and nothing else of the machine. -/
theorem phaseState_ex (s : State) :
    phaseState .ex s = { s with exSlot := exSlotAfter s, idSlot := none, stage := .ex } := by
  unfold exSlotAfter
  cases h : s.idSlot with
  | none =>
    cases s
    cases h
    rfl
  | some p => simp only [phaseState, stageInstr, h, Option.map_some, actArms, exPhase, exResultOf]

/-- `pc` after `Control` of an instruction. -/
def controlPc (i : Instr) (s : State) : Word :=
  match i with
  | .beq rs rt offset =>
    (match s.params.ctrlPolicy with
     | .predictVerify =>
       if counterTaken (bpCounter s.pc.toNat s.bp) ≠ beqTaken rs rt s ∧ beqTaken rs rt s = true
       then beqTarget .predictVerify s.pc offset else s.pc + 4
     | .resolveInDecode =>
       if beqTaken rs rt s then beqTarget .resolveInDecode s.pc offset else s.pc + 4)
  | .j target => jTarget target
  | .add _ _ _ | .sub _ _ _ | .mul _ _ _ | .lw _ _ _ | .sw _ _ _ | .nop => s.pc + 4

/-- `BP` after `Control` of an instruction. -/
def controlBp (i : Instr) (s : State) : PredTable :=
  match i with
  | .beq rs rt _ =>
    (match s.params.ctrlPolicy with
     | .predictVerify   => update s.pc.toNat (beqTaken rs rt s) (bpEnsure s.pc.toNat s.bp)
     | .resolveInDecode => s.bp)
  | .j _ | .add _ _ _ | .sub _ _ _ | .mul _ _ _ | .lw _ _ _ | .sw _ _ _ | .nop => s.bp

/-- What IF holds after `Control` of an instruction: the instruction, or `NOP` if squashed. -/
def controlInstr (i : Instr) (s : State) : Instr :=
  match i with
  | .beq rs rt _ =>
    (match s.params.ctrlPolicy with
     | .predictVerify   => if counterTaken (bpCounter s.pc.toNat s.bp) ≠ beqTaken rs rt s then .nop else i
     | .resolveInDecode => .nop)
  | .j _ => .nop
  | .add _ _ _ | .sub _ _ _ | .mul _ _ _ | .lw _ _ _ | .sw _ _ _ | .nop => i

/-- `Control` writes `pc`, `bp`, `ifSlot` and nothing else. -/
theorem control_eq (i : Instr) (s : State) (h : s.ifSlot = some i) :
    (armsOf i).control s =
      { s with pc := controlPc i s, bp := controlBp i s, ifSlot := some (controlInstr i s) } := by
  cases i with
  | beq rs rt offset =>
    simp only [armsOf, beqControl, controlPc, controlBp, controlInstr]
    cases s.params.ctrlPolicy with
    | predictVerify =>
      simp only [beqPredictVerify, predict, bpCounter_bpEnsure]
      by_cases hp : counterTaken (bpCounter s.pc.toNat s.bp) = beqTaken rs rt s
      · simp [hp, setPc, h]
      · by_cases ha : beqTaken rs rt s = true
        · simp [ha, setPc, squashIf] at hp ⊢
          simp [hp]
        · simp [ha, setPc, squashIf] at hp ⊢
          simp [hp]
    | resolveInDecode =>
      simp only [beqResolveInDecode, setPc, squashIf]
      split <;> rfl
  | j target => rfl
  | add rd rs rt | sub rd rs rt | mul rd rs rt | lw rs rt offset | sw rs rt offset | nop =>
    cases s
    cases h
    rfl

/-- `pc` after the ID phase. -/
def pcAfter (s : State) : Word :=
  match s.ifSlot with
  | none   => s.pc
  | some i => controlPc i s

/-- `BP` after the ID phase. -/
def bpAfter (s : State) : PredTable :=
  match s.ifSlot with
  | none   => s.bp
  | some i => controlBp i s

/-- The ID payload the ID phase makes. -/
def idSlotAfter (s : State) : Option IdPayload :=
  match s.ifSlot with
  | none   => s.idSlot
  | some i => some (captureOperands (controlInstr i s) s)

/-- An operand read depends on the register file alone. -/
theorem captureOperands_congr {s t : State} (i : Instr) (h : s.regs = t.regs) :
    captureOperands i s = captureOperands i t := by
  have hf : ∀ o, readField s o = readField t o := by
    intro o
    cases o with
    | none => rfl
    | some r => simp only [readField, readReg, h]
  simp only [captureOperands, hf]

/-- The ID phase writes `pc`, `bp`, `idSlot`, `ifSlot` and nothing else of the machine. -/
theorem phaseState_id (s : State) :
    phaseState .id s =
      { s with pc := pcAfter s, bp := bpAfter s, idSlot := idSlotAfter s, ifSlot := none, stage := .id } := by
  unfold pcAfter bpAfter idSlotAfter
  cases h : s.ifSlot with
  | none =>
    cases s
    cases h
    rfl
  | some i =>
    simp only [phaseState, stageInstr, h, actArms, idPhase]
    rw [control_eq i _ rfl]
    cases i <;> rfl

/-- The state as the MEM and ID phases of a step from `s` read it: the registers after WB, MEM emptied. -/
def afterWb (s : State) : State := { s with regs := regsAfterWb s, memSlot := none }

/-- A step, field by field: everything it can do. -/
theorem cycleState_eq (s : State) :
    cycleState s =
      { s with
        regs    := regsAfterWb s
        pc      := pcAfter (afterWb s)
        mem     := memoryAfter (afterWb s)
        ifSlot  := if hazardDetected (forwardingPhase s) then none else iFetch s (pcAfter (afterWb s))
        idSlot  := idSlotAfter { afterWb s with idSlot := none }
        exSlot  := exSlotAfter { forwardingPhase s with exSlot := none }
        memSlot := memSlotAfter (afterWb s)
        wbSlot  := wbSlotAfter s
        bp      := bpAfter (afterWb s)
        stalled := hazardDetected (forwardingPhase s)
        cycle   := s.cycle + 1
        stage   := .id
        draws   := drawsAfter (afterWb s) } := by
  unfold cycleState
  rw [phaseState_wb, phaseState_mem, phaseState_ex, phaseState_id]
  cases hd : s.idSlot with
  | none =>
    have hf : forwardingPhase s = s := by simp only [forwardingPhase, hd]
    rw [hf]
    cases h : hazardDetected s <;> simp only [ifPhase, hazardPhase, h, tick] <;> rfl
  | some d =>
    have hf : forwardingPhase s = { s with idSlot := some (forwardFrom s.exSlot (forwardFrom s.memSlot d)) } := by
      simp only [forwardingPhase, hd]
    rw [hf]
    cases h : hazardDetected { s with idSlot := some (forwardFrom s.exSlot (forwardFrom s.memSlot d)) } <;>
      simp only [ifPhase, hazardPhase, h, tick] <;> rfl

@[simp] theorem isSome_forwarded (s : State) : (forwardingPhase s).idSlot.isSome = s.idSlot.isSome := by
  rw [forwardingPhase_idSlot]
  cases s.idSlot <;> rfl

theorem forwardingPhase_instr (s : State) :
    (forwardingPhase s).idSlot.map (·.instr) = s.idSlot.map (·.instr) := by
  rw [forwardingPhase_idSlot]
  cases s.idSlot <;> simp

end Sys2Proof.Machine
end

