-- ==== Sys2Proof/Laws/Run.lean ====
section
/-! SUPPORT. The laws of runs and of the sequential meaning: what later proofs cite instead of unfolding them. -/

namespace Sys2Proof.Machine

/-! ### Runs -/

@[simp] theorem runFor_zero (s : State) : runFor 0 s = .next s := rfl

/-- A run of a core whose first step goes on. -/
theorem run_succ_of_next (M : Host.Core) (k : Nat) (s t : M.State) (h : M.step s = .next t) :
    M.run (k + 1) s = M.run k t := by
  rw [Host.Core.run, h]

/-- A run steps first, then goes on. -/
theorem runFor_succ (k : Nat) (s : State) : runFor (k + 1) s = runFor k (cycleState s) :=
  run_succ_of_next Sys2Proof.core k s (cycleState s) (step_eq s)

/-- How many instructions a run decodes, one step at a time. -/
theorem decodedCount_succ (k : Nat) (s : State) :
    decodedCount (k + 1) s = (if s.ifSlot.isSome then 1 else 0) + decodedCount k (cycleState s) := by
  rw [decodedCount, step_eq]

/-! ### Registers of the data state -/

theorem DataState.reg_setReg (d : DataState) (r q : RegIdx) (v : Word) :
    (d.setReg r v).reg q = if q = r then v else d.reg q := by
  unfold DataState.setReg DataState.reg
  simp only [Vector.getElem_set, Fin.ext_iff, eq_comm]

/-- The sequential meaning of an instruction leaves every register but its destination. -/
theorem seqData_reg_of_ne (i : Instr) (d : DataState) (r : RegIdx) (h : destOf i ≠ some r) :
    (seqData i d).reg r = d.reg r := by
  cases i with
  | add rd rs rt | sub rd rs rt | mul rd rs rt =>
    simp only [destOf, rdOf, ne_eq, Option.some.injEq] at h
    rw [seqData, DataState.reg_setReg, if_neg (fun hh => h hh.symm)]
  | lw rs rt offset =>
    simp only [destOf, rdOf, loadDestOf, ne_eq, Option.some.injEq] at h
    simp only [seqData]
    split
    · rw [DataState.reg_setReg, if_neg (fun hh => h hh.symm)]
    · rfl
  | sw rs rt offset =>
    simp only [seqData]
    split <;> rfl
  | beq rs rt offset => rfl
  | j target => rfl
  | nop => rfl

/-- Finishing MEM is the WB phase's register write. -/
theorem finishMem_dataOf (s : State) :
    finishMem s.memSlot (dataOf s) = { regs := regsAfterWb s, mem := s.mem } := by
  unfold regsAfterWb
  cases h : s.memSlot with
  | none => rfl
  | some p =>
    obtain ⟨i, v⟩ := p
    cases i <;> rfl

/-- One register after the WB phase. -/
theorem regsAfterWb_read (s : State) (r : RegIdx) :
    (regsAfterWb s)[r.val] =
      (match s.memSlot with
       | none   => readReg s r
       | some p => if destOf p.instr = some r then p.result else readReg s r) := by
  unfold regsAfterWb
  cases h : s.memSlot with
  | none => rfl
  | some p =>
    obtain ⟨i, v⟩ := p
    cases i <;> simp only [destOf, rdOf, loadDestOf, readReg, Option.some.injEq] <;>
      first
      | rfl
      | (rw [Vector.getElem_set]; simp only [Fin.ext_iff])

/-- Finishing EX leaves every register but the destination of the instruction there. -/
theorem finishEx_reg_of_ne (slot : Option Payload) (d : DataState) (r : RegIdx)
    (h : ∀ e, slot = some e → destOf e.instr ≠ some r) : (finishEx slot d).reg r = d.reg r := by
  cases slot with
  | none => rfl
  | some e =>
    have he := h e rfl
    simp only [finishEx]
    cases hr : rdOf e.instr with
    | none => exact seqData_reg_of_ne _ _ _ he
    | some q =>
      simp only [destOf, hr] at he
      rw [DataState.reg_setReg, if_neg (fun hh => he (by rw [hh]))]

/-- Finishing ID leaves every register but the destination of the instruction there. -/
theorem finishId_reg_of_ne (slot : Option IdPayload) (d : DataState) (r : RegIdx)
    (h : ∀ e, slot = some e → destOf e.instr ≠ some r) : (finishId slot d).reg r = d.reg r := by
  cases slot with
  | none => rfl
  | some e => exact seqData_reg_of_ne _ _ _ (h e rfl)

/-- What IF's instruction goes on as: itself, or, for a `beq` or `j`, possibly `NOP`. -/
theorem controlInstr_cases (i : Instr) (s : State) :
    controlInstr i s = i ∨ (isCtrl i = true ∧ controlInstr i s = .nop) := by
  cases i with
  | beq rs rt offset =>
    simp only [controlInstr]
    split
    · split
      · exact .inr ⟨rfl, rfl⟩
      · exact .inl rfl
    · exact .inr ⟨rfl, rfl⟩
  | j target => exact .inr ⟨rfl, rfl⟩
  | add rd rs rt | sub rd rs rt | mul rd rs rt | lw rs rt offset | sw rs rt offset | nop => exact .inl rfl

end Sys2Proof.Machine
end

