-- ==== Sys2Proof/Tests/Slice0.lean ====
section
/-! SUPPORT. The model's own tests: expected values are the spec's (the vector or rule is named at each), and the witnesses
that the hypotheses of the statements can be met. -/

namespace Sys2Proof.Tests

open Sys2Proof Sys2Proof.Machine

/-! ### Well-formedness (30_encoding.md R97): an ill-formed term for each check -/

theorem test_wf_lw_offset_below : (Instr.lw 1 2 (-32769)).wf = false := by decide
theorem test_wf_lw_offset_above : (Instr.lw 1 2 32768).wf = false := by decide
theorem test_wf_sw_offset_below : (Instr.sw 1 2 (-32769)).wf = false := by decide
theorem test_wf_sw_offset_above : (Instr.sw 1 2 32768).wf = false := by decide
theorem test_wf_beq_offset_below : (Instr.beq 1 2 (-32769)).wf = false := by decide
theorem test_wf_beq_offset_above : (Instr.beq 1 2 32768).wf = false := by decide
theorem test_wf_j_target_above : (Instr.j 67108864).wf = false := by decide

/-! ### Decoding: words written out bit by bit from the formats of 30_encoding.md R101 and R103 (96 V16) -/

theorem test_decode_add : decode 0b00000011111111111111100000100000 = some (.add 31 31 31) := by decide
theorem test_decode_sub : decode 0b00000000011001000001000000100010 = some (.sub 2 3 4) := by decide
theorem test_decode_mul : decode 0b01110001011011000101000000000010 = some (.mul 10 11 12) := by decide
theorem test_decode_lw : decode 0b10001111101010001111111111111100 = some (.lw 29 8 (-4)) := by decide
theorem test_decode_sw : decode 0b10101100001000101000000000000000 = some (.sw 1 2 (-32768)) := by decide
theorem test_decode_beq : decode 0b00010000001000101111111111111111 = some (.beq 1 2 (-1)) := by decide
theorem test_decode_j : decode 0b00001011111111111111111111111111 = some (.j 67108863) := by decide
theorem test_decode_nop : decode 0b00000000000000000000000000000000 = some .nop := by decide

/-- 96 V16: words that are no instruction. -/
theorem test_decode_rejects :
    [0x00000040, 0x00000021, 0x00000060, 0x00000860, 0x20000000, 0x0C000000, 0x14000000, 0x04000000, 0x70000000,
      0x70000042, 0x00000001, 0x0000000C, 0xFFFFFFFF].map decode = List.replicate 13 none := by decide

/-- A rejection names the word. -/
theorem test_decode_rejects_by_name : decodeNamed 0x0000000C = .error (.noRowMatches 0x0000000C) := by rfl

/-- 96 V16: one encoding of each format. -/
theorem test_encode :
    encode (.add 31 31 31) = 0x03FFF820 ∧ encode (.mul 10 11 12) = 0x716C5002 ∧
    encode (.sw 0 5 4092) = 0xAC050FFC ∧ encode (.beq 1 2 (-1)) = 0x1022FFFF ∧ encode (.j 2) = 0x08000002 := by decide

/-- The opcode table's numbering is the word's own; bits above 32 are no instruction word. -/
theorem test_decodeTableWord :
    decodeTableWord 32 0x00000820 = some (.add 1 0 0) ∧ decodeTableWord 40 0x100000820 = none := by decide

/-! ### Small states -/

/-- Registers with `x[1]`, `x[2]`, `x[3]` given and 0 elsewhere. -/
def regsWith (a b c : Word) : Vector Word 32 := (((Vector.replicate 32 0).set 1 a).set 2 b).set 3 c

/-- A state with the given registers, and the instruction in one slot. -/
def withIf (i : Instr) (a b c : Word) : State := { State.reset with regs := regsWith a b c, ifSlot := some i }
def withId (i : Instr) (a b : Word) : State :=
  { State.reset with idSlot := some { instr := i, rsValue := a, rtValue := b } }
def withEx (i : Instr) (r a b c : Word) : State :=
  { State.reset with regs := regsWith a b c, exSlot := some { instr := i, result := r } }
def withMem (i : Instr) (r : Word) : State := { State.reset with memSlot := some { instr := i, result := r } }

/-- The same state under the other policy. -/
def absolute (s : State) : State := { s with params := { s.params with ctrlPolicy := .resolveInDecode } }

/-! ### One step of each instruction -/

/-- 96 V12: `0x7FFFFFFF + 1`. -/
theorem test_add_wraps :
    (cycleState (withId (.add 3 1 2) 0x7FFFFFFF 1)).exSlot = some { instr := .add 3 1 2, result := 0x80000000 } := by decide

/-- 96 V12, 10_state.md R22: `add $s0,$s1,$s1` writes register 0. -/
theorem test_add_writes_register_zero : readReg (cycleState (withMem (.add 0 1 1) 12)) 0 = 12 := by decide

/-- 96 V12: `5 - 7`, not `7 - 5`. -/
theorem test_sub_order :
    (cycleState (withId (.sub 3 1 2) 5 7)).exSlot = some { instr := .sub 3 1 2, result := 0xFFFFFFFE } := by decide

theorem test_sub_writes_rd : readReg (cycleState (withMem (.sub 31 1 2) 7)) 31 = 7 := by decide

/-- 96 V12: `46341 * 46341`, low 32 bits. -/
theorem test_mul_low_word :
    (cycleState (withId (.mul 3 1 2) 0xB505 0xB505)).exSlot = some { instr := .mul 3 1 2, result := 0x80001219 } := by decide

/-- 44_arith.md R212: `-3 * 7`. -/
theorem test_mul_signed :
    (cycleState (withId (.mul 3 1 2) 0xFFFFFFFD 7)).exSlot = some { instr := .mul 3 1 2, result := 0xFFFFFFEB } := by decide

/-- 45_loadstore.md R220: `x[rs] = 8`, `offset = -4`, `M[1] = 0x2A`; the base is the register, not the EX result. -/
theorem test_lw_reads :
    (cycleState { withEx (.lw 1 2 (-4)) 99 8 0 0 with mem := [(4, 0x2A)] }).memSlot
      = some { instr := .lw 1 2 (-4), result := 0x2A } := by decide

/-- 96 V13: `lw $s1,4096($s0)` reads nothing: a draw is made and memory stays. -/
theorem test_lw_invalid :
    (cycleState (withEx (.lw 0 1 4096) 0 0 0 0)).draws = 1 ∧ (cycleState (withEx (.lw 0 1 4096) 0 0 0 0)).mem = [] := by
  decide

/-- 96 V13: `sw $s1,-8($s3)` with `$s3 = 16`, `$s1 = -1`. -/
theorem test_sw_writes : (cycleState (withEx (.sw 3 1 (-8)) 0 0xFFFFFFFF 0 16)).mem = [(8, 0xFFFFFFFF)] := by decide

/-- 96 V13: `sw $s1,6($s0)` writes nothing. -/
theorem test_sw_invalid : (cycleState (withEx (.sw 0 1 6) 0 5 0 0)).mem = [] := by decide

/-- 46_control.md R232 rows 2 and 4: from an unseen address taken, from counter 2 not followed. -/
theorem test_beq_predictVerify :
    (cycleState { withIf (.beq 1 2 5) 7 7 0 with pc := 8 }).pc = 28 ∧
    (cycleState { withIf (.beq 1 2 5) 7 7 0 with pc := 8, bp := [(8, 2)] }).pc = 12 ∧
    (cycleState { withIf (.beq 1 2 5) 7 7 0 with pc := 8, bp := [(8, 2)] }).bp = [(8, 3)] := by decide

/-- 46_control.md R233: an absolute index, and the `beq` becomes `NOP`. -/
theorem test_beq_resolveInDecode :
    (cycleState (absolute { withIf (.beq 1 2 5) 7 7 0 with pc := 8 })).pc = 20 ∧
    (cycleState (absolute { withIf (.beq 1 2 5) 7 8 0 with pc := 8 })).idSlot
      = some { instr := .nop, rsValue := 0, rtValue := 0 } := by decide

/-- 46_control.md R235: `j 2` at byte address 12. -/
theorem test_j :
    (cycleState { withIf (.j 2) 0 0 0 with pc := 12 }).pc = 8 ∧
    (cycleState { withIf (.j 2) 0 0 0 with pc := 12 }).idSlot = some { instr := .nop, rsValue := 0, rtValue := 0 } := by
  decide

/-- 47_nop.md R250: a `nop` at address 8. -/
theorem test_nop : (cycleState { withIf .nop 0 0 0 with pc := 8 }).pc = 12 := by decide

/-- 10_state.md R29: `0xFFFFFFFC + 4 = 0`. -/
theorem test_pc_wraps : (cycleState { withIf .nop 0 0 0 with pc := 0xFFFFFFFC }).pc = 0 := by decide

/-- The word of `add $s1,$s0,$s0` placed at reset is decoded by the very next step. -/
theorem test_withFetchWord :
    (cycleState (State.reset.withFetchWord 32 0x00000820)).idSlot = some { instr := .add 1 0 0, rsValue := 0, rtValue := 0 }
      ∧ iFetch (State.reset.withFetchWord 32 0x00000820) 0 = some (.add 1 0 0) := by decide

/-! ### The units -/

/-- 41_forwarding.md R188: EX wins over MEM. -/
theorem test_forwarding_ex_wins :
    forwardFrom (some { instr := .add 1 2 3, result := 11 }) (forwardFrom (some { instr := .add 1 4 5, result := 22 })
      { instr := .add 4 1 1, rsValue := 7, rtValue := 7 }) = { instr := .add 4 1 1, rsValue := 11, rtValue := 11 } := by decide

/-- 41_forwarding.md R188: a `lw` in EX is no source, so the MEM source applies. -/
theorem test_forwarding_lw_is_no_source :
    forwardFrom (some { instr := .lw 0 1 0, result := 0 }) (forwardFrom (some { instr := .add 1 4 5, result := 22 })
      { instr := .add 4 1 1, rsValue := 7, rtValue := 7 }) = { instr := .add 4 1 1, rsValue := 22, rtValue := 22 } := by decide

/-- 96 V10 rows 1, 7, 10, 12: structural, data from an R-type, data from a `lw`, also through a destination field. -/
theorem test_hazards :
    structuralHazard { withMem (.sw 0 1 4) 0 with ifSlot := some (.lw 0 2 0) } = true ∧
    dataHazard { withEx (.add 1 0 0) 0 0 0 0 with idSlot := some { instr := .add 2 1 1, rsValue := 0, rtValue := 0 } }
      = true ∧
    dataHazard { withEx (.lw 0 1 0) 0 0 0 0 with idSlot := some { instr := .add 2 1 1, rsValue := 0, rtValue := 0 } }
      = true ∧
    dataHazard { withEx (.lw 0 1 0) 0 0 0 0 with idSlot := some { instr := .lw 2 1 0, rsValue := 0, rtValue := 0 } }
      = true := by decide

/-- 96 V10 rows 15, 17, 21: no hazard from a `sw`, from MEM, or to a `nop`. -/
theorem test_no_hazards :
    hazardDetected { withEx (.sw 0 1 0) 0 0 0 0 with idSlot := some { instr := .add 2 1 1, rsValue := 0, rtValue := 0 } }
      = false ∧
    hazardDetected { withMem (.add 1 0 0) 0 with idSlot := some { instr := .add 2 1 1, rsValue := 0, rtValue := 0 } }
      = false ∧
    hazardDetected { withEx (.add 0 1 1) 0 0 0 0 with idSlot := some { instr := .nop, rsValue := 0, rtValue := 0 } }
      = false := by decide

/-- 43_branch_predictor.md R203: the row of state 3 and the row of state 0. -/
theorem test_predictor_bounds :
    update 8 true [(8, 3)] = [(8, 3)] ∧ update 8 false [(8, 0)] = [(8, 0)] ∧ (predict 8 []) = (false, [(8, 1)]) := by decide

/-! ### The assembler and the host -/

/-- 30_encoding.md R132: the worked example. -/
theorem test_assembler_worked_example :
    assemble .predictVerify ("# demo\nstart:\n  add $s1, $s0, $s0\n  addi $s1, $s1, 1  # bad\n" ++
      "loop: lw $s2, 8($s1)\n  j loop\n").toList
      = { entries := [(0, .add 1 0 0), (8, .lw 1 2 8), (12, .j 2)], rejected := [3] } := by decide

/-- 30_encoding.md R125: a `beq` label under the two policies, the `beq` at index 1. -/
theorem test_assembler_beq_label :
    (assemble .predictVerify "loop: nop\nbeq $s0,$s0,loop".toList).entries = [(0, .nop), (4, .beq 0 0 (-1))] ∧
    (assemble .resolveInDecode "loop: nop\nbeq $s0,$s0,loop".toList).entries = [(0, .nop), (4, .beq 0 0 0)] := by decide

/-- 50_host_interface.md R265, R280: a program loaded by clock edges; the undecodable word and the unaligned address are
holes. -/
theorem test_load_words :
    (loadWords [(0, 0x00000820), (4, 0x20000000), (6, 0x00000000), (8, 0x8C220008)] State.reset).imem
      = [(0, .add 1 0 0), (8, .lw 1 2 8)] := by decide

/-! ### Witnesses: the hypotheses of each statement can be met

One theorem for each statement that has hypotheses, with one witness for each of its clauses. -/

theorem witness_DecodeOfEncode :
    (Instr.sw 31 0 (-32768)).wf = true ∧ (Instr.lw 0 31 32767).wf = true ∧ (Instr.j 67108863).wf = true := by decide

theorem witness_EncodeOfDecode : ∃ (w : Word) (i : Instr), decode w = some i := ⟨0xAC228000, .sw 1 2 (-32768), by decide⟩

/-- The word of `nop`, whose row lies next to the R-type rows of the same opcode field. -/
theorem witness_OneOpcodeRowPerWord :
    opcodeRows.length = 8 ∧ rowNop.selects 0x00000000 = true ∧ rowAdd.selects 0x00000820 = true ∧
    rowAdd.selects 0x00000000 = false ∧ rowNop.selects 0x00000820 = false := by decide

theorem witness_DecodedFieldsInRange : ∃ (w : Word) (i : Instr), decode w = some i := ⟨0x0BFFFFFF, .j 67108863, by decide⟩

/-- At the last address within an extent of two words. -/
theorem witness_StepRunsTheDecodedInstruction :
    ∃ (s : State) (w : Word) (i : Instr),
      decode w = some i ∧ s.ifSlot = none ∧ hazardDetected s = false ∧ storableAt s.params s.pc.toNat = true :=
  ⟨{ State.reset with pc := 4, params := { imemWords := some 2 } }, 0x00000820, .add 1 0 0, by decide⟩

/-- A state with all five slots occupied, in the named phase. -/
def fullState (st : Stage) : State :=
  { State.reset with
    regs    := regsWith 7 7 4
    pc      := 12
    imem    := [(12, .beq 1 2 (-2))]
    ifSlot  := some (.beq 1 2 (-2))
    idSlot  := some { instr := .add 4 1 2, rsValue := 7, rtValue := 7 }
    exSlot  := some { instr := .sw 0 1 4092, result := 0 }
    memSlot := some { instr := .lw 0 3 0, result := 42 }
    wbSlot  := some { instr := .nop, result := 0 }
    bp      := [(12, 2)]
    stage   := st }

theorem witness_PhaseRunsTheSlotsInstruction :
    (∃ p, (fullState .id).memSlot = some p) ∧ (∃ p, (fullState .id).exSlot = some p) ∧
    (∃ p, (fullState .id).idSlot = some p) ∧ (∃ i, (fullState .id).ifSlot = some i) ∧
    State.reset.memSlot = none ∧ State.reset.exSlot = none ∧ State.reset.idSlot = none ∧ State.reset.ifSlot = none :=
  ⟨⟨_, rfl⟩, ⟨_, rfl⟩, ⟨_, rfl⟩, ⟨_, rfl⟩, rfl, rfl, rfl, rfl⟩

theorem witness_FetchWordRunsNext : ∃ (w : Word) (i : Instr), decode w = some i := ⟨0x8FA8FFFC, .lw 29 8 (-4), by decide⟩

/-- The four phases, each with its slot occupied: every clause of the statements about one instruction in each phase. -/
theorem witness_phases :
    (∃ s : State, s.stage = .id) ∧ (∃ (s : State) (p : IdPayload), s.stage = .ex ∧ s.idSlot = some p) ∧
    (∃ (s : State) (p : Payload), s.stage = .mem ∧ s.exSlot = some p) ∧
    (∃ (s : State) (p : Payload), s.stage = .wb ∧ s.memSlot = some p) :=
  ⟨⟨fullState .id, rfl⟩, ⟨fullState .ex, _, rfl, rfl⟩, ⟨fullState .mem, _, rfl, rfl⟩, ⟨fullState .wb, _, rfl, rfl⟩⟩

theorem witness_ArithmeticEffectInEveryPhase :
    (fullState .id).stage = .id ∧ ((fullState .ex).stage = .ex ∧ (fullState .ex).idSlot.isSome = true) ∧
    ((fullState .mem).stage = .mem ∧ (fullState .mem).exSlot.isSome = true) ∧
    ((fullState .wb).stage = .wb ∧ (fullState .wb).memSlot.isSome = true) := by decide

/-- The last valid address, and the first beyond it, a negative one and an unaligned one. -/
theorem witness_LoadEffectInEveryPhase :
    ((fullState .mem).stage = .mem ∧ (fullState .mem).exSlot.isSome = true) ∧
    validDAddr (effectiveAddr (fullState .mem) 0 4092) = true ∧ validDAddr (effectiveAddr (fullState .mem) 0 0) = true ∧
    validDAddr (effectiveAddr (fullState .mem) 0 4096) = false ∧ validDAddr (effectiveAddr (fullState .mem) 0 (-4)) = false ∧
    validDAddr (effectiveAddr (fullState .mem) 3 (-2)) = false := by decide

theorem witness_StoreEffectInEveryPhase :
    ((fullState .mem).stage = .mem ∧ (fullState .mem).exSlot.isSome = true) ∧
    validDAddr (effectiveAddr (fullState .mem) 3 4088) = true ∧ validDAddr (effectiveAddr (fullState .mem) 3 4092) = false ∧
    validDAddr (effectiveAddr (fullState .mem) 3 (-4)) = true ∧ validDAddr (effectiveAddr (fullState .mem) 3 (-8)) = false := by
  decide

/-- Every counter and the unseen address, with an outcome of each kind. -/
theorem witness_BranchPredictVerifyDecode :
    (∀ c : Counter, lookupAt ({ fullState .id with bp := [(12, c)] }).bp (fullState .id).pc.toNat = some c) ∧
    lookupAt ({ fullState .id with bp := [] }).bp (fullState .id).pc.toNat = none ∧
    (fullState .id).stage = .id ∧ (fullState .id).params.ctrlPolicy = .predictVerify ∧
    readReg (fullState .id) 1 = readReg (fullState .id) 2 ∧ readReg (fullState .id) 1 ≠ readReg (fullState .id) 3 := by
  decide

theorem witness_BranchResolveInDecode :
    (absolute (fullState .id)).stage = .id ∧ (absolute (fullState .id)).params.ctrlPolicy = .resolveInDecode := by decide

theorem witness_BranchLaterPhases :
    ((fullState .ex).stage = .ex ∧ (fullState .ex).idSlot.isSome = true) ∧
    ((fullState .mem).stage = .mem ∧ (fullState .mem).exSlot.isSome = true) ∧
    ((fullState .wb).stage = .wb ∧ (fullState .wb).memSlot.isSome = true) := by decide

theorem witness_JumpEffectInEveryPhase :
    (fullState .id).stage = .id ∧ targetInRange 67108863 = true ∧ targetInRange 67108864 = false ∧
    ((fullState .ex).stage = .ex ∧ (fullState .ex).idSlot.isSome = true) ∧
    ((fullState .mem).stage = .mem ∧ (fullState .mem).exSlot.isSome = true) ∧
    ((fullState .wb).stage = .wb ∧ (fullState .wb).memSlot.isSome = true) := by decide

theorem witness_NopEffectInEveryPhase :
    (fullState .id).stage = .id ∧ ((fullState .ex).stage = .ex ∧ (fullState .ex).idSlot.isSome = true) ∧
    ((fullState .mem).stage = .mem ∧ (fullState .mem).exSlot.isSome = true) ∧
    ((fullState .wb).stage = .wb ∧ (fullState .wb).memSlot.isSome = true) := by decide

theorem witness_WbPhaseCommitsTheMemSlot : ∃ (s : State) (p : Payload), s.memSlot = some p := ⟨fullState .wb, _, rfl⟩

theorem witness_PhasesEmptyTheirSource :
    ∀ st : Stage, runStage st (fullState .id) = .next (phaseState st (fullState .id)) := fun st => runStage_eq st _

theorem witness_IfPhaseFetchesAtPc :
    ({ fullState .id with stalled := true }).stalled = true ∧
    ((fullState .id).stalled = false ∧ iFetch (fullState .id) (fullState .id).pc = some (.beq 1 2 (-2))) ∧
    (State.reset.stalled = false ∧ iFetch State.reset State.reset.pc = none) := by decide

/-- EX and MEM hold R-types with the same `rd`, which ID names; then EX holds none; then neither is a source. -/
theorem witness_ForwardingGivesYoungestResult :
    State.reset.idSlot = none ∧
    (let s := { withId (.add 4 1 1) 7 7 with exSlot := some { instr := .add 1 2 3, result := 11 }
                                             memSlot := some { instr := .sub 1 4 5, result := 22 } }
     s.idSlot.isSome = true ∧ s.exSlot.bind (fun e => rdOf e.instr) = some 1 ∧
       s.memSlot.bind (fun m => rdOf m.instr) = some 1 ∧ rsOf (.add 4 1 1) = some 1) ∧
    (let s := { withId (.add 4 1 1) 7 7 with exSlot := some { instr := .lw 0 1 0, result := 0 }
                                             memSlot := some { instr := .sub 1 4 5, result := 22 } }
     s.exSlot.bind (fun e => rdOf e.instr) = none ∧ s.memSlot.bind (fun m => rdOf m.instr) = some 1) ∧
    (let s := { withId (.add 4 1 1) 7 7 with exSlot := some { instr := .lw 0 1 0, result := 0 }
                                             memSlot := some { instr := .sub 2 4 5, result := 22 } }
     s.exSlot.bind (fun e => rdOf e.instr) = none ∧ s.memSlot.bind (fun m => rdOf m.instr) = some 2) := by decide

/-- Two different states with the same instructions in their slots. -/
theorem witness_HazardReadsOnlySlotInstructions :
    withId (.add 4 1 1) 7 7 ≠ withId (.add 4 1 1) 0 7 ∧
    (withId (.add 4 1 1) 7 7).ifSlot = (withId (.add 4 1 1) 0 7).ifSlot ∧
    (withId (.add 4 1 1) 7 7).idSlot.map (·.instr) = (withId (.add 4 1 1) 0 7).idSlot.map (·.instr) ∧
    (withId (.add 4 1 1) 7 7).exSlot.map (·.instr) = (withId (.add 4 1 1) 0 7).exSlot.map (·.instr) ∧
    (withId (.add 4 1 1) 7 7).memSlot.map (·.instr) = (withId (.add 4 1 1) 0 7).memSlot.map (·.instr) := by decide

theorem witness_PredictInitialisesLazily :
    lookupAt ([] : PredTable) 8 = none ∧ lookupAt ([(8, 1)] : PredTable) 8 = some 1 ∧
    lookupAt ([(8, 2)] : PredTable) 8 = some 2 ∧ 12 ≠ 8 := by decide

/-- Every counter, and the unseen address. -/
theorem witness_UpdateSaturates :
    (∀ k : Counter, lookupAt ([(8, k)] : PredTable) 8 = some k) ∧ lookupAt ([] : PredTable) 8 = none ∧ 12 ≠ 8 := by decide

theorem witness_PredictorSaturatesAtThree : lookupAt ([(8, 2)] : PredTable) 12 = none := by decide

/-- The step-wide statements: a step from a state with every slot occupied, and from the reset state. -/
theorem witness_steps :
    (∃ t, step (fullState .id) = .next t) ∧ (∃ t, step State.reset = .next t) := ⟨⟨_, step_eq _⟩, ⟨_, step_eq _⟩⟩

theorem witness_StepMovesEverySlot :
    (fullState .id).memSlot.isSome = true ∧
    ((fullState .id).exSlot.isSome = true ∧ (fullState .id).exSlot.all (fun p => !isLoad p.instr) = true) ∧
    State.reset.ifSlot = none ∧ (fullState .id).ifSlot.isSome = true ∧
    ∃ t, step (fullState .id) = .next t := ⟨by decide, by decide, rfl, by decide, _, step_eq _⟩

theorem witness_StepWritesPcAndPredictorOnlyFromIf :
    State.reset.ifSlot = none ∧ (withIf (.add 1 2 3) 0 0 0).ifSlot = some (.add 1 2 3) ∧ isCtrl (.add 1 2 3) = false ∧
    (withIf (.j 2) 0 0 0).ifSlot = some (.j 2) ∧ (fullState .id).ifSlot = some (.beq 1 2 (-2)) ∧
    lookupAt (fullState .id).bp 12 ≠ none ∧ 8 ≠ (fullState .id).pc.toNat ∧
    (cycleState (fullState .id)).bp ≠ (fullState .id).bp := by decide

theorem witness_LoadIsNeverForwarded :
    ∃ (s t : State) (d : IdPayload) (rs rt : RegIdx) (offset : Int) (r : Word),
      s.idSlot = some d ∧ isR d.instr = true ∧ s.exSlot = some { instr := .lw rs rt offset, result := r } ∧
      (∀ m, s.memSlot = some m → isR m.instr = false) ∧ step s = .next t ∧ namesReg d.instr rt = true :=
  ⟨{ withId (.add 2 1 1) 7 7 with exSlot := some { instr := .lw 0 1 0, result := 0 } }, _, _, 0, 1, 0, 0, rfl, rfl, rfl,
    nofun, step_eq _, by decide⟩

/-- With a `lw` of a valid address in EX (the last one), and with one of the first invalid address. -/
theorem witness_CycleWbAndOldFlagHaveNoEffect :
    (∃ t, step (withEx (.lw 0 1 4096) 0 0 0 0) = .next t) ∧
    (loadAddrValid (withEx (.lw 0 1 4092) 0 0 0 0) ∧ ∃ t, step (withEx (.lw 0 1 4092) 0 0 0 0) = .next t) :=
  ⟨⟨_, step_eq _⟩, by intro rs rt o v h; cases h; decide, _, step_eq _⟩

theorem witness_ResetValues :
    ∃ s u : State, u ≠ s ∧ u = hostReset s := ⟨fullState .id, hostReset (fullState .id), by decide, rfl⟩

/-- A drained state that is not the reset state: a program that ran off its end at address 8. -/
def drainedState : State := { State.reset with pc := 8, imem := [(0, .nop), (4, .nop)], cycle := 6, stalled := true }

theorem witness_DrainedStepOnlyCounts : drained drainedState ∧ ∃ t, step drainedState = .next t :=
  ⟨⟨rfl, rfl, rfl, rfl, by decide⟩, _, step_eq _⟩

/-- At a hole with instructions still in flight. -/
theorem witness_HoleFreezesPc :
    ({ fullState .id with ifSlot := none, pc := 16 }).ifSlot = none ∧
    iFetch { fullState .id with ifSlot := none, pc := 16 } 16 = none := by decide

/-! #### The invariants hold in the reset state and in a state in the middle of a run -/

theorem reset_canonical : State.reset.Canonical where
  memWf     := by decide
  imemWf    := by decide
  bpWf      := by decide
  pcAligned := by decide
  slotsWf   := by decide

theorem witness_StepKeepsCanonical : (fullState .id).Canonical ∧ ∃ t, step (fullState .id) = .next t :=
  ⟨⟨by decide, by decide, by decide, by decide, by decide⟩, _, step_eq _⟩

theorem witness_HostCommandKeepsCanonical :
    (∃ t, clockEdge (.loadWord 8 0x00000820) State.reset = .next t) ∧ Command.loadWord 8 0x00000820 ≠ .step :=
  ⟨⟨_, rfl⟩, by decide⟩

/-- A state in the middle of a run: a `beq` in IF, its registers equal and not yet seen by the predictor, an `add` in ID. -/
def runningState : State :=
  { State.reset with
    regs   := regsWith 7 7 4
    pc     := 4
    imem   := [(0, .add 4 3 3), (4, .beq 1 2 (-1))]
    ifSlot := some (.beq 1 2 (-1))
    idSlot := some { instr := .add 4 3 3, rsValue := 4, rtValue := 4 } }

theorem running_pipelineInv : runningState.PipelineInv where
  fetchedAtPc := by
    intro i h
    cases h
    decide
  noJump := by simp [slotInstrsAfterIf, runningState, State.reset, State.resetWith]
  noBranch := nofun
  bpEmpty := nofun
  idCache := by
    intro p h
    cases h
    decide

theorem witness_StepKeepsPipelineInv : runningState.PipelineInv ∧ ∃ t, step runningState = .next t :=
  ⟨running_pipelineInv, _, step_eq _⟩

/-- The conditions of 40_engine_step.md R174 hold in that state. -/
theorem running_hazardFree : hazardFree runningState := by
  refine ⟨?_, ?_, ?_, ?_⟩
  · intro d hd _ r _
    exact ⟨nofun, nofun⟩
  · intro rs rt offset h r hr
    cases h
    refine ⟨fun d hd => ?_, nofun⟩
    cases hd
    rcases hr with rfl | rfl <;> decide
  · nofun
  · intro _ rs rt offset h _
    cases h
    decide

theorem witness_StepRefinesSequentialData :
    (∀ p, runningState.idSlot = some p → p = captureOperands p.instr runningState) ∧ loadUseSpaced runningState ∧
    loadAddrValid runningState ∧ ∃ t, step runningState = .next t :=
  ⟨running_pipelineInv.idCache, running_hazardFree.1, running_hazardFree.2.2.1, _, step_eq _⟩

theorem witness_StepRefinesSequentialPc :
    branchSpaced runningState ∧ takenBranchMispredicted runningState ∧ ∃ t, step runningState = .next t :=
  ⟨running_hazardFree.2.1, running_hazardFree.2.2.2, _, step_eq _⟩

theorem witness_RunRefinesSequentialExecution :
    (runningState.PipelineInv ∧ (∀ k, k < 1 → ∀ u, runFor k runningState = .next u → hazardFree u) ∧
      ∃ t, runFor 1 runningState = .next t) ∧ drained drainedState := by
  refine ⟨⟨running_pipelineInv, fun k hk u hu => ?_, _, by rw [runFor_succ, runFor_zero]⟩,
    witness_DrainedStepOnlyCounts.1⟩
  obtain rfl : k = 0 := by omega
  cases hu
  exact running_hazardFree

/-- A program of one instruction, at the last word of a bounded store. -/
def loneState (i : Instr) : State := { State.reset with pc := 4, imem := [(4, i)], params := { imemWords := some 2 } }

theorem loneState_alone (i : Instr) : aloneAtPc (loneState i) i :=
  ⟨rfl, rfl, rfl, rfl, by simp [iFetch, InstrStore.fetch, loneState, storableAt, inExtent, lookupAt]⟩

theorem witness_ArithmeticWritesInFifthStep :
    aloneAtPc (loneState (.add 0 1 2)) (.add 0 1 2) ∧ aloneAtPc (loneState (.sub 31 1 2)) (.sub 31 1 2) ∧
    aloneAtPc (loneState (.mul 1 1 1)) (.mul 1 1 1) := ⟨loneState_alone _, loneState_alone _, loneState_alone _⟩

theorem witness_LoadAndStoreAccessInFourthStep :
    (aloneAtPc (loneState (.lw 0 1 4092)) (.lw 0 1 4092) ∧
      validDAddr (effectiveAddr (loneState (.lw 0 1 4092)) 0 4092) = true) ∧
    (aloneAtPc (loneState (.sw 0 1 0)) (.sw 0 1 0) ∧ validDAddr (effectiveAddr (loneState (.sw 0 1 0)) 0 0) = true) :=
  ⟨⟨loneState_alone _, by decide⟩, ⟨loneState_alone _, by decide⟩⟩

/-- Under a bound of two words: the last storable address, the first beyond it, an unaligned one; and an address that holds
an instruction, at which a word that does not decode leaves a hole (assumption 11, the model's choice). -/
theorem witness_LoadStoresDecodedWords :
    storableAt { imemWords := some 2 } 4 = true ∧ storableAt { imemWords := some 2 } 8 = false ∧
    storableAt { imemWords := some 2 } 6 = false ∧ (4 : Word) ≠ 8 ∧
    iFetch { State.reset with imem := [(4, .nop)] } 4 = some .nop ∧ decode 0x0000000C = none ∧
    iFetch (loadWord 4 0x0000000C { State.reset with imem := [(4, .nop)] }) 4 = none := by decide

/-- One line accepted and one rejected, and a text with no accepted line. -/
theorem witness_SourceLoadStoresAcceptedLines :
    (0, .nop) ∈ (assemble .predictVerify "nop\naddi".toList).entries ∧
    iFetch (loadSource "nop\naddi".toList State.reset).1 0 = some .nop ∧
    (loadSource "nop\naddi".toList State.reset).2.accepted = true ∧
    (assemble .predictVerify "addi".toList).entries = [] ∧
    (loadSource "addi".toList State.reset).2.accepted = false := by decide

/-- The last register and the first index beyond it, a token of each kind, the bounds of data memory. -/
theorem witness_InjectAndInspect :
    31 < 32 ∧ 32 ≤ 32 ∧ parseReg "$s31".toList = some 31 ∧ parseReg "$s32".toList = none ∧
    validDAddr 0 = true ∧ validDAddr 4092 = true ∧ validDAddr 4096 = false ∧ validDAddr (-4) = false ∧
    validDAddr 2 = false := by decide

/-- 50_host_interface.md section 1: a write accessor reports whether the write was made. -/
theorem test_poke_reports_outcome :
    (pokeReg 31 5 State.reset).2 = true ∧ (pokeReg 32 5 State.reset).2 = false ∧
    (pokeMem 4092 5 State.reset).2 = true ∧ (pokeMem 4094 5 State.reset).2 = false := by decide

theorem witness_AssemblerReadsCanonicalText :
    (Instr.lw 31 0 (-32768)).wf = true ∧
    parseInstr .predictVerify [] 0 (render (.lw 31 0 (-32768))) = some (.lw 31 0 (-32768)) := by decide

end Sys2Proof.Tests
end

section
/-! Reset and construction (10_state.md R25, R45; 50_host_interface.md R272, R273): what the empty memory and the empty store
read as, and the reset values of every item of the state. -/

namespace Sys2Proof.Machine

/-- No listed word: every word is at its reset value (10_state.md R43). -/
@[simp] theorem Memory.readWord_nil (a : Nat) : Memory.readWord [] a = 0 := rfl

/-- The empty store holds an instruction nowhere, within its extent or beyond it (10_state.md R44). -/
@[simp] theorem InstrStore.fetch_nil (p : Params) (a : Nat) : InstrStore.fetch p [] a = none := by
  unfold InstrStore.fetch
  split <;> rfl

/-- Reset reads only the parameters and the number of draws, and keeps both; hence R273 of 50_host_interface.md. -/
theorem hostReset_hostReset (s : State) : hostReset (hostReset s) = hostReset s := rfl

/-- 10_state.md R25; register 0 is an ordinary register (R22), so it needs no case of its own. -/
theorem readReg_resetWith (p : Params) (d : Nat) (r : RegIdx) :
    readReg { State.resetWith p with draws := d } r = 0 :=
  Vector.getElem_replicate r.isLt

theorem iFetch_resetWith (p : Params) (d : Nat) (a : Word) :
    iFetch { State.resetWith p with draws := d } a = none :=
  InstrStore.fetch_nil p a.toNat

/-- Reset and construction both leave a `resetWith` state, whatever its number of draws; they differ in nothing that
10_state.md R45 lists. -/
theorem exists_eq_resetWith {s u : State} (hu : u = hostReset s ∨ u = State.reset) :
    ∃ (p : Params) (d : Nat), u = { State.resetWith p with draws := d } := by
  obtain rfl | rfl := hu
  · exact ⟨s.params, s.draws, rfl⟩
  · exact ⟨{}, 0, rfl⟩

/-- Settles O34: both ways of starting leave a `resetWith` state, whose registers, memory and store read as stated; the
other items are fields of it. -/
theorem resetValues : Obligations.ResetValues := by
  unfold Obligations.ResetValues
  refine ⟨hostReset_hostReset, fun s u hu => ?_⟩
  obtain ⟨p, d, rfl⟩ := exists_eq_resetWith hu
  exact ⟨readReg_resetWith p d, fun k _ => Memory.readWord_nil (4 * k), rfl, iFetch_resetWith p d,
    rfl, rfl, rfl, rfl, rfl, rfl, rfl, rfl⟩

end Sys2Proof.Machine
end

section
/-! The WB phase and the IF phase (40_engine_step.md R150, R165): what the WB phase of an occupied MEM slot leaves, and the IF
phase with the `stalled` flag each way. -/

namespace Sys2Proof.Machine

/-- The register the WB phase writes is the destination of MEM's instruction, register 0 included (10_state.md R22). -/
theorem regsAfterWb_of_memSlot {s : State} {p : Payload} (h : s.memSlot = some p) (r : RegIdx) :
    (regsAfterWb s)[r.val] = if destOf p.instr = some r then p.result else s.regs[r.val] := by
  rw [regsAfterWb_read, h]
  rfl

/-- The WB phase with MEM occupied (40_engine_step.md R150). -/
theorem runStage_wb_of_memSlot {s : State} {p : Payload} (h : s.memSlot = some p) :
    runStage .wb s =
      .next { s with regs := regsAfterWb s, wbSlot := some p, memSlot := none, stage := .wb } := by
  have hwb : wbSlotAfter s = some p := by rw [wbSlotAfter, h]
  rw [runStage_eq, phaseState_wb, hwb]

/-- Settles O18: the register file is `regsAfterWb`, and the destination is read off each instruction. -/
theorem wbPhaseCommitsTheMemSlot : Obligations.WbPhaseCommitsTheMemSlot := by
  unfold Obligations.WbPhaseCommitsTheMemSlot
  intro s p h
  refine ⟨regsAfterWb s, runStage_wb_of_memSlot h, fun r => ?_⟩
  rw [regsAfterWb_of_memSlot h]
  obtain ⟨i, v⟩ := p
  cases i with
  | add rd rs rt | sub rd rs rt | mul rd rs rt => simp only [destOf, rdOf, Option.some.injEq, eq_comm]
  | lw rs rt offset => simp only [destOf, rdOf, loadDestOf, Option.some.injEq, eq_comm]
  | sw rs rt offset | beq rs rt offset | j target | nop => rfl

theorem ifPhase_of_stalled {s : State} (h : s.stalled = true) : ifPhase s = s := if_pos h

theorem ifPhase_of_not_stalled {s : State} (h : s.stalled = false) :
    ifPhase s = { s with ifSlot := iFetch s s.pc } := by
  rw [ifPhase, h]
  rfl

/-- The ID phase empties IF, whether it consumed an instruction or found none (40_engine_step.md R160). -/
theorem ifSlot_of_runStage_id {s t : State} (h : runStage .id s = .next t) : t.ifSlot = none := by
  rw [runStage_eq, phaseState_id] at h
  cases h
  rfl

/-- Settles O20, from the two cases of the flag; an instruction and a hole differ only in what the fetch answers. -/
theorem ifPhaseFetchesAtPc : Obligations.IfPhaseFetchesAtPc := by
  unfold Obligations.IfPhaseFetchesAtPc
  refine ⟨fun _ hs => ifPhase_of_stalled hs, fun s i hs hf => ?_, fun s hs hf => ?_,
    fun _ _ h => ifSlot_of_runStage_id h⟩
  · rw [ifPhase_of_not_stalled hs, hf]
  · rw [ifPhase_of_not_stalled hs, hf]

end Sys2Proof.Machine
end

section
/-! The Hazard Detector (42_hazard_detector.md): which constructors its classifiers name (30_encoding.md R96), and the exact
condition of the two structural checks and of the control check over the slots they read. -/

namespace Sys2Proof.Machine

theorem isMemOp_iff {i : Instr} :
    isMemOp i = true ↔ ∃ rs rt offset, i = .lw rs rt offset ∨ i = .sw rs rt offset := by
  cases i with
  | lw rs rt offset => exact ⟨fun _ => ⟨rs, rt, offset, .inl rfl⟩, fun _ => rfl⟩
  | sw rs rt offset => exact ⟨fun _ => ⟨rs, rt, offset, .inr rfl⟩, fun _ => rfl⟩
  | add rd rs rt | sub rd rs rt | mul rd rs rt | beq rs rt offset | j target | nop => simp [isMemOp]

theorem isMul_iff {i : Instr} : isMul i = true ↔ ∃ rd rs rt, i = .mul rd rs rt := by
  cases i with
  | mul rd rs rt => exact ⟨fun _ => ⟨rd, rs, rt, rfl⟩, fun _ => rfl⟩
  | add rd rs rt | sub rd rs rt | lw rs rt offset | sw rs rt offset | beq rs rt offset | j target | nop =>
    simp [isMul]

theorem isCtrl_iff {i : Instr} :
    isCtrl i = true ↔ (∃ rs rt offset, i = .beq rs rt offset) ∨ ∃ target, i = .j target := by
  cases i with
  | beq rs rt offset => exact ⟨fun _ => .inl ⟨rs, rt, offset, rfl⟩, fun _ => rfl⟩
  | j target => exact ⟨fun _ => .inr ⟨target, rfl⟩, fun _ => rfl⟩
  | add rd rs rt | sub rd rs rt | mul rd rs rt | lw rs rt offset | sw rs rt offset | nop => simp [isCtrl]

/-- An empty MEM or IF raises no memory-port hazard; with both occupied the two instructions decide (R190). -/
theorem memoryPortHazard_iff (s : State) :
    memoryPortHazard s = true ↔
      ∃ m i, s.memSlot = some m ∧ s.ifSlot = some i ∧ isMemOp m.instr = true ∧ isMemOp i = true := by
  unfold memoryPortHazard
  cases s.memSlot with
  | none => simp
  | some m =>
    cases s.ifSlot with
    | none => simp
    | some i => simp

/-- An empty EX or ID raises no multiplier hazard; with both occupied the two instructions decide (R191). -/
theorem multiplierHazard_iff (s : State) :
    multiplierHazard s = true ↔
      ∃ e d, s.exSlot = some e ∧ s.idSlot = some d ∧ isMul e.instr = true ∧ isMul d.instr = true := by
  unfold multiplierHazard
  cases s.exSlot with
  | none => simp
  | some e =>
    cases s.idSlot with
    | none => simp
    | some d => simp

/-- An empty ID raises no control hazard; an occupied one does by its instruction alone (R194). -/
theorem controlHazard_iff (s : State) :
    controlHazard s = true ↔ ∃ d, s.idSlot = some d ∧ isCtrl d.instr = true := by
  unfold controlHazard
  cases s.idSlot with
  | none => simp
  | some d => simp

/-- Settles O22: the two structural checks one by one, each classifier spelled by its constructors. -/
theorem structuralHazardExactly : Obligations.StructuralHazardExactly := by
  unfold Obligations.StructuralHazardExactly
  intro s
  rw [structuralHazard, Bool.or_eq_true, memoryPortHazard_iff, multiplierHazard_iff]
  simp only [isMemOp_iff, isMul_iff]

/-- No check of the detector reads the flag that its result goes to (R195). -/
theorem hazardDetected_withStalled (s : State) (old : Bool) :
    hazardDetected { s with stalled := old } = hazardDetected s := rfl

/-- Settles O24: the flag's old value is neither read nor kept, and the control check reads ID alone. -/
theorem hazardPhaseSetsStalled : Obligations.HazardPhaseSetsStalled := by
  unfold Obligations.HazardPhaseSetsStalled
  refine ⟨fun s old => ?_, fun s => ?_⟩
  · rw [hazardPhase, hazardDetected_withStalled, hazardDetected]
  · rw [controlHazard_iff]
    simp only [isCtrl_iff]

end Sys2Proof.Machine
end

section
/-! The Branch Predictor (43_branch_predictor.md): `predict` and `update` each said once over the counter an address counts as
(`bpCounter`, an unseen address counting as `bpInit`) and over the table's entries, and the counter under repeated updates. -/

namespace Sys2Proof.Machine

theorem bpCounter_of_unseen {a : Nat} {t : PredTable} (h : lookupAt t a = none) : bpCounter a t = bpInit := by
  rw [bpCounter, h, Option.getD_none]

theorem bpCounter_of_seen {a : Nat} {t : PredTable} {c : Counter} (h : lookupAt t a = some c) : bpCounter a t = c := by
  rw [bpCounter, h, Option.getD_some]

/-- A seen address is not initialised again (R201). -/
theorem bpEnsure_of_seen {a : Nat} {t : PredTable} {c : Counter} (h : lookupAt t a = some c) : bpEnsure a t = t := by
  rw [bpEnsure, h]

/-- The prediction is that of the counter before the lazy initialisation (R201). -/
theorem predict_fst (a : Nat) (t : PredTable) : (predict a t).1 = counterTaken (bpCounter a t) := by
  rw [predict, bpCounter_bpEnsure]

theorem predict_snd (a : Nat) (t : PredTable) : (predict a t).2 = bpEnsure a t := rfl

/-- Settles O26: an unseen address counts as `bpInit`, below the threshold, and the lazy initialisation writes that counter
at the address and nothing elsewhere. -/
theorem predictInitialisesLazily : Obligations.PredictInitialisesLazily := by
  unfold Obligations.PredictInitialisesLazily
  intro a t
  refine ⟨fun hnone => ⟨?_, ?_⟩, fun c hc => ⟨?_, ?_⟩, fun b hb => ?_⟩
  · rw [predict_fst, bpCounter_of_unseen hnone]
    rfl
  · rw [predict_snd, lookupAt_bpEnsure, if_pos rfl, bpCounter_of_unseen hnone]
    rfl
  · rw [predict_fst, bpCounter_of_seen hc, counterTaken]
  · rw [predict_snd, bpEnsure_of_seen hc]
  · rw [predict_snd, lookupAt_bpEnsure, if_neg hb]

/-- Whether or not the address was seen, `update` leaves there the successor of what it counts as (R202). -/
theorem lookupAt_update (a b : Nat) (taken : Bool) (t : PredTable) :
    lookupAt (update a taken t) b =
      if b = a then some (counterNext taken (bpCounter a t)) else lookupAt t b := by
  rw [update, bpCounter_bpEnsure, lookupAt_insertAt, lookupAt_bpEnsure]
  by_cases hb : b = a
  · rw [if_pos hb, if_pos hb]
  · rw [if_neg hb, if_neg hb, if_neg hb]

@[simp] theorem bpCounter_update (a : Nat) (taken : Bool) (t : PredTable) :
    bpCounter a (update a taken t) = counterNext taken (bpCounter a t) :=
  bpCounter_of_seen (by rw [lookupAt_update, if_pos rfl])

theorem counterNext_val (taken : Bool) (c : Counter) :
    (counterNext taken c).val = if taken then min 3 (c.val + 1) else max 0 (c.val - 1) := by
  cases taken with
  | true => rfl
  | false => exact (Nat.zero_max _).symm

/-- Settles O27: `c` is the counter the address counts as, whose successor is the entry `update` leaves. -/
theorem updateSaturates : Obligations.UpdateSaturates := by
  unfold Obligations.UpdateSaturates
  intro a taken t c hc
  have hcounter : c = (bpCounter a t).val := by
    cases h : lookupAt t a with
    | none => rw [hc, h, bpCounter_of_unseen h]; rfl
    | some k => rw [hc, h, bpCounter_of_seen h]
  refine ⟨⟨counterNext taken (bpCounter a t), ?_, ?_⟩, fun b hb => ?_⟩
  · rw [lookupAt_update, if_pos rfl]
  · rw [counterNext_val, hcounter]
  · rw [lookupAt_update, if_neg hb]

/-- Repeated updates of one address act on its counter alone. -/
theorem bpCounter_update_iterate (a : Nat) (taken : Bool) (n : Nat) (t : PredTable) :
    bpCounter a ((update a taken)^[n] t) = (counterNext taken)^[n] (bpCounter a t) :=
  Function.Semiconj.iterate_right (f := bpCounter a) (bpCounter_update a taken) n t

/-- The counter after `n` taken outcomes in a row: `n` up, but no further than 3 (R202). -/
theorem counterNext_true_iterate_val (n : Nat) (c : Counter) :
    ((counterNext true)^[n] c).val = min 3 (c.val + n) := by
  induction n with
  | zero => exact (Nat.min_eq_right (Nat.le_of_lt_succ c.isLt)).symm
  | succ n ih =>
    rw [Function.iterate_succ_apply', counterNext_val, if_pos rfl, ih]
    omega

/-- At least three taken outcomes in a row saturate the counter, whatever it was (R206). -/
theorem bpCounter_saturated (a n : Nat) (t : PredTable) : bpCounter a ((update a true)^[3 + n] t) = 3 := by
  rw [bpCounter_update_iterate]
  apply Fin.ext
  rw [counterNext_true_iterate_val]
  exact Nat.min_eq_left (by omega)

/-- Once updated, an address has an entry, which is the counter it counts as. -/
theorem lookupAt_update_iterate (a : Nat) (taken : Bool) {n : Nat} (hn : n ≠ 0) (t : PredTable) :
    lookupAt ((update a taken)^[n] t) a = some (bpCounter a ((update a taken)^[n] t)) := by
  obtain ⟨m, rfl⟩ := Nat.exists_eq_succ_of_ne_zero hn
  rw [Function.iterate_succ_apply', lookupAt_update, if_pos rfl, bpCounter_update]

/-- Settles O28: an unseen address counts as 1, below the threshold, and one taken update makes it 2; from three taken
updates on the counter is saturated, whatever the number of further ones. -/
theorem predictorSaturatesAtThree : Obligations.PredictorSaturatesAtThree := by
  unfold Obligations.PredictorSaturatesAtThree
  intro a t hnone
  refine ⟨?_, ?_, fun n => ⟨?_, ?_⟩⟩
  · rw [predict_fst, bpCounter_of_unseen hnone]
    rfl
  · rw [predict_fst, bpCounter_update, bpCounter_of_unseen hnone]
    rfl
  · rw [lookupAt_update_iterate a true (by omega), bpCounter_saturated]
  · rw [predict_fst, bpCounter_saturated]
    rfl

end Sys2Proof.Machine
end

section
/-! `beq` in the ID phase (46_control.md R230 to R233): what the ID phase of any instruction leaves, the counter an address
counts as read off the table, and the two policies' outcomes assembled from them. -/

namespace Sys2Proof.Machine

theorem actArms_of_stage_id (i : Instr) (arms : PhaseArms) {s : State} (h : s.stage = .id) :
    actArms i arms s = idPhase i arms.control s := by
  rw [actArms, h]

/-- `exec` in the ID phase: `Control`'s three outcomes, and IF's instruction, if not squashed, moved on with its operands
(40_engine_step.md R160). -/
theorem exec_of_stage_id (i : Instr) {s : State} (h : s.stage = .id) :
    exec i s = .next
      { s with pc := controlPc i s, bp := controlBp i s, ifSlot := none,
               idSlot := some (captureOperands (controlInstr i s) s) } := by
  rw [exec_eq, actArms_of_stage_id i _ h, idPhase, control_eq i _ rfl]
  cases i <;> rfl

theorem beqTaken_eq_decide (rs rt : RegIdx) (s : State) : beqTaken rs rt s = decide (readReg s rs = readReg s rt) := rfl

/-- The counter an address counts as, read off the table: its entry, or 1 (R201). -/
theorem bpCounter_val (a : Nat) (t : PredTable) :
    (bpCounter a t).val = (match lookupAt t a with
      | some k => k.val
      | none   => 1) := by
  cases h : lookupAt t a with
  | none => rw [bpCounter_of_unseen h]; rfl
  | some k => rw [bpCounter_of_seen h]

/-- The lazy initialisation by a preceding `predict` makes no difference to `update`, which does it itself (R201, R202). -/
theorem update_bpEnsure (a : Nat) (taken : Bool) (t : PredTable) : update a taken (bpEnsure a t) = update a taken t := by
  have hidem : bpEnsure a (bpEnsure a t) = bpEnsure a t :=
    bpEnsure_of_seen (by rw [lookupAt_bpEnsure, if_pos rfl])
  rw [update, hidem, update]

/-- Settles O14: under `ResolveInDecode` the operand equality alone chooses `pc`, and `NOP` has no operands to capture. -/
theorem branchResolveInDecode : Obligations.BranchResolveInDecode := by
  unfold Obligations.BranchResolveInDecode
  intro rs rt offset s hstage hpolicy
  rw [exec_of_stage_id _ hstage]
  simp only [controlPc, controlBp, controlInstr, hpolicy, beqTaken_eq_decide, decide_eq_true_eq]
  rfl

/-- Settles O13: the prediction and the update both act on the counter `b` counts as in the table before the phase; the
update's table is the one `updateSaturates` describes, and the squash decides what is captured in ID. -/
theorem branchPredictVerifyDecode : Obligations.BranchPredictVerifyDecode := by
  unfold Obligations.BranchPredictVerifyDecode
  intro rs rt offset s c predicted actual hstage hpolicy hc hpredicted hactual
  have hcounter : c = (bpCounter s.pc.toNat s.bp).val := hc.trans (bpCounter_val _ _).symm
  have hprediction : counterTaken (bpCounter s.pc.toNat s.bp) = predicted := by
    rw [counterTaken, hpredicted, hcounter]
  have htaken : beqTaken rs rt s = actual := (beqTaken_eq_decide rs rt s).trans hactual.symm
  obtain ⟨⟨k, hk, hval⟩, hframe⟩ := updateSaturates s.pc.toNat actual s.bp c hc
  refine ⟨update s.pc.toNat actual s.bp, ?_, ⟨k, hk, ?_⟩, hframe⟩
  · rw [exec_of_stage_id _ hstage]
    simp only [controlPc, controlBp, controlInstr, hpolicy, hprediction, htaken, update_bpEnsure]
    by_cases hmiss : predicted ≠ actual
    · rw [if_pos hmiss, if_pos hmiss]
      rfl
    · rw [if_neg hmiss, if_neg hmiss]
      rfl
  · rw [hval, Nat.zero_max]

end Sys2Proof.Machine
end

section
/-! The instruction word (30_encoding.md Part 2, decision D9): the rows of the opcode map are pairwise disjoint, so the row a
word selects is the one the decoder takes; each format put together again from the fields of a word. -/

namespace Sys2Proof

/-- Two rows whose patterns disagree on a bit that both masks read are selected by no common word (30_encoding.md R103). -/
theorem OpcodeRow.selects_eq_false_of_disagree {r q : OpcodeRow} (h : r.pattern &&& q.mask ≠ q.pattern &&& r.mask)
    {w : Word} (hr : r.selects w = true) : q.selects w = false := by
  rw [OpcodeRow.selects, beq_iff_eq] at hr
  rw [OpcodeRow.selects, beq_eq_false_iff_ne]
  intro hq
  refine h ?_
  calc r.pattern &&& q.mask = w &&& r.mask &&& q.mask := by rw [hr]
    _ = w &&& q.mask &&& r.mask := by rw [BitVec.and_assoc, BitVec.and_comm r.mask, BitVec.and_assoc]
    _ = q.pattern &&& r.mask := by rw [hq]

/-- Settles O3: any two rows disagree on a bit that both read. -/
theorem oneOpcodeRowPerWord : Obligations.OneOpcodeRowPerWord := by
  unfold Obligations.OneOpcodeRowPerWord
  have hdisagree : opcodeRows.Pairwise fun r q => r.pattern &&& q.mask ≠ q.pattern &&& r.mask := by decide
  exact hdisagree.imp fun h _ hr => OpcodeRow.selects_eq_false_of_disagree h hr

/-- In a list of pairwise disjoint rows the first row a word selects is the only one. -/
theorem find?_selects_of_pairwise {rows : List OpcodeRow} {r : OpcodeRow} {w : Word}
    (hdisjoint : rows.Pairwise fun r q => ∀ w : Word, r.selects w = true → q.selects w = false)
    (hmem : r ∈ rows) (hr : r.selects w = true) : rows.find? (·.selects w) = some r := by
  induction rows with
  | nil => exact absurd hmem List.not_mem_nil
  | cons q rows ih =>
    obtain ⟨hq, hrows⟩ := List.pairwise_cons.mp hdisjoint
    rcases List.mem_cons.mp hmem with rfl | hmem
    · exact List.find?_cons_of_pos hr
    · have hnot : ¬ q.selects w = true := fun hsel => by
        rw [hq r hmem w hsel] at hr
        cases hr
      exact (List.find?_cons_of_neg (p := fun r : OpcodeRow => r.selects w) hnot).trans (ih hrows hmem)

/-- The decoder answers what the row of the word builds from it (30_encoding.md R104). -/
theorem decode_eq_some_iff {w : Word} {i : Instr} :
    decode w = some i ↔ ∃ r ∈ opcodeRows, r.selects w = true ∧ r.build w = i := by
  unfold decode decodeNamed
  constructor
  · intro h
    cases hfind : opcodeRows.find? (·.selects w) with
    | none => simp [hfind] at h
    | some r =>
      simp only [hfind, Option.some.injEq] at h
      have hsel : r.selects w = true := List.find?_some (p := fun r : OpcodeRow => r.selects w) hfind
      exact ⟨r, List.mem_of_find?_eq_some hfind, hsel, h⟩
  · rintro ⟨r, hmem, hr, rfl⟩
    rw [find?_selects_of_pairwise oneOpcodeRowPerWord hmem hr]

theorem rowOf_mem_opcodeRows (i : Instr) : Laws.EncodedRow.rowOf i ∈ opcodeRows := by
  cases i <;> simp [Laws.EncodedRow.rowOf, opcodeRows]

/-- Every instruction's word selects its row, which reads its fields back. -/
theorem encodedRow (i : Instr) : Laws.EncodedRow.Statement i := by
  cases i with
  | add rd rs rt => exact Laws.EncodedRow.add rd rs rt
  | sub rd rs rt => exact Laws.EncodedRow.sub rd rs rt
  | mul rd rs rt => exact Laws.EncodedRow.mul rd rs rt
  | lw rs rt offset => exact Laws.EncodedRow.lw rs rt offset
  | sw rs rt offset => exact Laws.EncodedRow.sw rs rt offset
  | beq rs rt offset => exact Laws.EncodedRow.beq rs rt offset
  | j target => exact Laws.EncodedRow.j target
  | nop => exact Laws.EncodedRow.nop

/-- Settles O1: the encoded word selects the instruction's row, which by disjointness is the row the decoder takes. -/
theorem decodeOfEncode : Obligations.DecodeOfEncode := by
  unfold Obligations.DecodeOfEncode
  intro i hi
  obtain ⟨hsel, hbuild⟩ := encodedRow i hi
  exact decode_eq_some_iff.mpr ⟨_, rowOf_mem_opcodeRows i, hsel, hbuild⟩

/-! ### Each format put together again -/

/-- A bit of a register field is a bit of the word. -/
theorem getLsbD_field (w : Word) (start k : Nat) (h : start ≤ k ∧ k < start + 5) :
    (BitVec.ofFin (w := 5) (w.extractLsb' start 5).toFin).getLsbD (k - start) = w.getLsbD k := by
  show (w.extractLsb' start 5).getLsbD (k - start) = w.getLsbD k
  rw [BitVec.getLsbD_extractLsb', show start + (k - start) = k by omega]
  simp
  omega

/-- A bit of the opcode is a bit of the word. -/
theorem getLsbD_opcode {w : Word} {opcode : BitVec 6} (h : w.extractLsb' 26 6 = opcode) {k : Nat}
    (hk : 26 ≤ k ∧ k < 32) : opcode.getLsbD (k - 26) = w.getLsbD k := by
  rw [← h, BitVec.getLsbD_extractLsb', show 26 + (k - 26) = k by omega]
  simp
  omega

theorem encodeR_fields {w : Word} {opcode funct : BitVec 6} (hop : w.extractLsb' 26 6 = opcode)
    (hlow : w.extractLsb' 0 11 = 0#5 ++ funct) :
    encodeR opcode (fieldRs w) (fieldRt w) (fieldRd w) funct = w := by
  refine BitVec.eq_of_getLsbD_eq fun k hk => ?_
  have hbit : k < 11 → (0#5 ++ funct).getLsbD k = w.getLsbD k := fun h => by
    rw [← hlow, BitVec.getLsbD_extractLsb', Nat.zero_add]
    simp [h]
  rw [encodeR_getLsbD]
  simp only [BitVec.getLsbD_append, BitVec.getLsbD_zero] at hbit
  split
  · rw [← hbit (by omega), if_pos ‹_›]
  · split
    · rw [← hbit (by omega), if_neg ‹_›]
    · split
      · exact getLsbD_field w 11 k (by omega)
      · split
        · exact getLsbD_field w 16 k (by omega)
        · split
          · exact getLsbD_field w 21 k (by omega)
          · exact getLsbD_opcode hop (by omega)

theorem encodeI_fields {w : Word} {opcode : BitVec 6} (hop : w.extractLsb' 26 6 = opcode) :
    encodeI opcode (fieldRs w) (fieldRt w) (fieldOffset w) = w := by
  refine BitVec.eq_of_getLsbD_eq fun k hk => ?_
  rw [encodeI_getLsbD]
  split
  · rw [fieldOffset, BitVec.ofInt_toInt, BitVec.getLsbD_extractLsb', Nat.zero_add]
    simp [*]
  · split
    · exact getLsbD_field w 16 k (by omega)
    · split
      · exact getLsbD_field w 21 k (by omega)
      · exact getLsbD_opcode hop (by omega)

theorem encodeJ_fields {w : Word} {opcode : BitVec 6} (hop : w.extractLsb' 26 6 = opcode) :
    encodeJ opcode (fieldTarget w) = w := by
  refine BitVec.eq_of_getLsbD_eq fun k hk => ?_
  rw [encodeJ_getLsbD]
  split
  · rw [fieldTarget, BitVec.ofNat_toNat, BitVec.setWidth_eq, BitVec.getLsbD_extractLsb', Nat.zero_add]
    simp [*]
  · exact getLsbD_opcode hop (by omega)

/-! ### What a selected row says of the word -/

theorem opcode_of_selects {r : OpcodeRow} {w : Word} {opcode : BitVec 6} (hm : r.mask = 0xFC000000#32)
    (hp : r.pattern = opcode ++ 0#26) (h : r.selects w = true) : w.extractLsb' 26 6 = opcode := by
  rw [OpcodeRow.selects, beq_iff_eq, hm, hp] at h
  exact (mask_opcode_iff w opcode).mp h

theorem opcode_low11_of_selects {r : OpcodeRow} {w : Word} {opcode funct : BitVec 6} (hm : r.mask = 0xFC0007FF#32)
    (hp : r.pattern = opcode ++ 0#15 ++ (0#5 ++ funct)) (h : r.selects w = true) :
    w.extractLsb' 26 6 = opcode ∧ w.extractLsb' 0 11 = 0#5 ++ funct := by
  rw [OpcodeRow.selects, beq_iff_eq, hm, hp] at h
  exact (mask_opcode_low11_iff w opcode _).mp h

theorem eq_zero_of_selects_rowNop {w : Word} (h : rowNop.selects w = true) : w = 0#32 := by
  have hmask : rowNop.mask = BitVec.allOnes 32 := by decide
  rw [OpcodeRow.selects, beq_iff_eq, hmask, BitVec.and_allOnes] at h
  exact h

/-- An R-format row's instruction encodes to the word. -/
theorem encodeR_fields_of_selects {r : OpcodeRow} {w : Word} {opcode funct : BitVec 6} (h : r.selects w = true)
    (hm : r.mask = 0xFC0007FF#32) (hp : r.pattern = opcode ++ 0#15 ++ (0#5 ++ funct)) :
    encodeR opcode (fieldRs w) (fieldRt w) (fieldRd w) funct = w :=
  encodeR_fields (opcode_low11_of_selects hm hp h).1 (opcode_low11_of_selects hm hp h).2

/-- The rows spell every bit of a word they select: the bits a mask reads are constant, the others are fields. -/
theorem encode_build_of_selects {r : OpcodeRow} {w : Word} (hmem : r ∈ opcodeRows) (h : r.selects w = true) :
    encode (r.build w) = w := by
  simp only [opcodeRows, List.mem_cons, List.not_mem_nil, or_false] at hmem
  rcases hmem with rfl | rfl | rfl | rfl | rfl | rfl | rfl | rfl
  · exact (eq_zero_of_selects_rowNop h).symm
  · exact encodeR_fields_of_selects h rfl (by decide)
  · exact encodeR_fields_of_selects h rfl (by decide)
  · exact encodeR_fields_of_selects h rfl (by decide)
  · exact encodeJ_fields (opcode_of_selects rfl (by decide) h)
  · exact encodeI_fields (opcode_of_selects rfl (by decide) h)
  · exact encodeI_fields (opcode_of_selects rfl (by decide) h)
  · exact encodeI_fields (opcode_of_selects rfl (by decide) h)

/-- Settles O2, row by row. -/
theorem encodeOfDecode : Obligations.EncodeOfDecode := by
  unfold Obligations.EncodeOfDecode
  intro w i h
  obtain ⟨r, hmem, hsel, rfl⟩ := decode_eq_some_iff.mp h
  exact encode_build_of_selects hmem hsel

/-! ### The ranges of decoded fields (30_encoding.md R97, R102) -/

theorem offsetInRange_fieldOffset (w : Word) : offsetInRange (fieldOffset w) = true := by
  have hlow : -32768 ≤ fieldOffset w := (w.extractLsb' 0 16).le_toInt
  have hhigh : fieldOffset w < 32768 := (w.extractLsb' 0 16).toInt_lt
  simp only [offsetInRange, Bool.and_eq_true, decide_eq_true_eq]
  omega

theorem targetInRange_fieldTarget (w : Word) : targetInRange (fieldTarget w) = true := by
  have : fieldTarget w < 67108864 := (w.extractLsb' 0 26).isLt
  simp only [targetInRange, decide_eq_true_eq]
  omega

/-- Every row builds an instruction with its fields in range, from any word. -/
theorem build_wf {r : OpcodeRow} (hmem : r ∈ opcodeRows) (w : Word) : (r.build w).wf = true := by
  simp only [opcodeRows, List.mem_cons, List.not_mem_nil, or_false] at hmem
  rcases hmem with rfl | rfl | rfl | rfl | rfl | rfl | rfl | rfl
  · rfl
  · rfl
  · rfl
  · rfl
  · exact targetInRange_fieldTarget w
  · exact offsetInRange_fieldOffset w
  · exact offsetInRange_fieldOffset w
  · exact offsetInRange_fieldOffset w

/-- Settles O4: a field is as wide as its range. -/
theorem decodedFieldsInRange : Obligations.DecodedFieldsInRange := by
  unfold Obligations.DecodedFieldsInRange
  intro w i h
  obtain ⟨r, hmem, -, rfl⟩ := decode_eq_some_iff.mp h
  exact build_wf hmem w

/-- Settles O5: the eight words of 96_test_vectors_derived.md V16. -/
theorem specWordsDecode : Obligations.SpecWordsDecode := by
  unfold Obligations.SpecWordsDecode
  decide

end Sys2Proof
end

section
/-! The Forwarding Unit and the Hazard Detector (41_forwarding.md, 42_hazard_detector.md): forwarding as a function of one
cached value, and each check as a function of the instructions in the slots it reads. -/

namespace Sys2Proof.Machine

/-! ### Forwarding -/

/-- What forwarding from one slot makes of a cached value `v` whose field is `field` (41_forwarding.md R180, R184). -/
def forwardedValue (source : Option Payload) (field : Option RegIdx) (v : Word) : Word :=
  match source with
  | none   => v
  | some p => if rdOf p.instr ≠ none ∧ field = rdOf p.instr then p.result else v

/-- The two fields are forwarded independently, by the same rule (R182). -/
theorem forwardFrom_eq (source : Option Payload) (d : IdPayload) :
    forwardFrom source d =
      { instr := d.instr
        rsValue := forwardedValue source (rsOf d.instr) d.rsValue
        rtValue := forwardedValue source (rtOf d.instr) d.rtValue } := by
  cases source with
  | none => rfl
  | some p => exact forwardFrom_some p d

theorem forwardedValue_of_source {source : Option Payload} {p : Payload} {field : Option RegIdx} {r : RegIdx} (v : Word)
    (hp : source = some p) (hrd : rdOf p.instr = some r) (hfield : field = some r) :
    forwardedValue source field v = p.result := by
  subst hp hfield
  simp [forwardedValue, hrd]

theorem forwardedValue_of_no_source {source : Option Payload} {field : Option RegIdx} (v : Word)
    (h : ∀ p, source = some p → rdOf p.instr = none ∨ field ≠ rdOf p.instr) :
    forwardedValue source field v = v := by
  cases source with
  | none => rfl
  | some p =>
    refine if_neg fun ⟨hsome, hfield⟩ => ?_
    exact (h p rfl).elim hsome fun hne => hne hfield

/-- A slot whose instruction writes no such register is no source for the field. -/
theorem no_source_of_rd_ne {source : Option Payload} {field : Option RegIdx} {r : RegIdx} (hfield : field = some r)
    (h : ∀ p, source = some p → rdOf p.instr ≠ some r) :
    ∀ p, source = some p → rdOf p.instr = none ∨ field ≠ rdOf p.instr :=
  fun p hp => .inr fun heq => h p hp (heq.symm.trans hfield)

/-- The ForwardingPhase on an occupied ID: MEM's result first, EX's over it (R183, decision D26). -/
theorem forwardingPhase_of_idSlot {s : State} {d : IdPayload} (h : s.idSlot = some d) :
    forwardingPhase s =
      { s with
        idSlot := some {
          instr := d.instr
          rsValue := forwardedValue s.exSlot (rsOf d.instr) (forwardedValue s.memSlot (rsOf d.instr) d.rsValue)
          rtValue := forwardedValue s.exSlot (rtOf d.instr) (forwardedValue s.memSlot (rtOf d.instr) d.rtValue) } } := by
  simp only [forwardingPhase, h, forwardFrom_eq]

/-- The value a field has after both sources: EX's result, else MEM's, else the cached one. -/
theorem forwardedValue_youngest (s : State) (field : Option RegIdx) (v : Word) :
    (∀ e r, s.exSlot = some e → rdOf e.instr = some r → field = some r →
      forwardedValue s.exSlot field (forwardedValue s.memSlot field v) = e.result) ∧
    (∀ m r, s.memSlot = some m → rdOf m.instr = some r → (∀ e, s.exSlot = some e → rdOf e.instr ≠ some r) →
      field = some r → forwardedValue s.exSlot field (forwardedValue s.memSlot field v) = m.result) ∧
    ((∀ p, (s.exSlot = some p ∨ s.memSlot = some p) → rdOf p.instr = none ∨ field ≠ rdOf p.instr) →
      forwardedValue s.exSlot field (forwardedValue s.memSlot field v) = v) := by
  refine ⟨fun e r he hrd hf => forwardedValue_of_source _ he hrd hf, fun m r hm hrd hex hf => ?_, fun h => ?_⟩
  · rw [forwardedValue_of_no_source _ (no_source_of_rd_ne hf hex), forwardedValue_of_source v hm hrd hf]
  · rw [forwardedValue_of_no_source _ fun p hp => h p (.inl hp), forwardedValue_of_no_source _ fun p hp => h p (.inr hp)]

/-- Settles O21: one rule for a field, applied to `rs` and to `rt`. -/
theorem forwardingGivesYoungestResult : Obligations.ForwardingGivesYoungestResult := by
  unfold Obligations.ForwardingGivesYoungestResult
  refine ⟨fun s h => by simp only [forwardingPhase, h], fun s d h => ⟨_, _, forwardingPhase_of_idSlot h, ?_⟩⟩
  obtain ⟨hexRs, hmemRs, hkeepRs⟩ := forwardedValue_youngest s (rsOf d.instr) d.rsValue
  obtain ⟨hexRt, hmemRt, hkeepRt⟩ := forwardedValue_youngest s (rtOf d.instr) d.rtValue
  exact ⟨fun e r he hrd => ⟨hexRs e r he hrd, hexRt e r he hrd⟩,
    fun m r hm hrd hex => ⟨hmemRs m r hm hrd hex, hmemRt m r hm hrd hex⟩, hkeepRs, hkeepRt⟩

/-! ### Hazard detection -/

theorem namesReg_iff {i : Instr} {r : RegIdx} : namesReg i r = true ↔ rsOf i = some r ∨ rtOf i = some r := by
  simp [namesReg]

/-- An instruction has at most one of an R-type destination and a load destination. -/
theorem destOf_eq_some_iff {i : Instr} {r : RegIdx} : destOf i = some r ↔ rdOf i = some r ∨ loadDestOf i = some r := by
  cases i <;> simp [destOf, rdOf, loadDestOf]

theorem rTypeDataHazard_iff (s : State) :
    rTypeDataHazard s = true ↔
      ∃ e d r, s.exSlot = some e ∧ s.idSlot = some d ∧ rdOf e.instr = some r ∧ namesReg d.instr r = true := by
  unfold rTypeDataHazard
  cases s.exSlot with
  | none => simp
  | some e =>
    cases s.idSlot with
    | none => simp
    | some d => cases hrd : rdOf e.instr <;> simp [hrd]

theorem loadDataHazard_iff (s : State) :
    loadDataHazard s = true ↔
      ∃ e d r, s.exSlot = some e ∧ s.idSlot = some d ∧ loadDestOf e.instr = some r ∧ namesReg d.instr r = true := by
  unfold loadDataHazard
  cases s.exSlot with
  | none => simp
  | some e =>
    cases s.idSlot with
    | none => simp
    | some d => cases hrt : loadDestOf e.instr <;> simp [hrt]

/-- Settles O23: the two data checks are the two ways an instruction has a destination. -/
theorem dataHazardExactly : Obligations.DataHazardExactly := by
  unfold Obligations.DataHazardExactly
  intro s
  rw [dataHazard, Bool.or_eq_true, rTypeDataHazard_iff, loadDataHazard_iff]
  simp only [namesReg_iff, destOf_eq_some_iff]
  constructor
  · rintro (⟨e, d, r, he, hd, hdest, hname⟩ | ⟨e, d, r, he, hd, hdest, hname⟩)
    · exact ⟨e, d, r, he, hd, .inl hdest, hname⟩
    · exact ⟨e, d, r, he, hd, .inr hdest, hname⟩
  · rintro ⟨e, d, r, he, hd, hdest | hdest, hname⟩
    · exact .inl ⟨e, d, r, he, hd, hdest, hname⟩
    · exact .inr ⟨e, d, r, he, hd, hdest, hname⟩

/-! #### Each check over the instructions in the slots -/

theorem memoryPortHazard_eq_any (s : State) :
    memoryPortHazard s = (s.memSlot.map (·.instr)).any fun m => s.ifSlot.any fun i => isMemOp m && isMemOp i := by
  unfold memoryPortHazard
  cases s.memSlot <;> cases s.ifSlot <;> rfl

theorem multiplierHazard_eq_any (s : State) :
    multiplierHazard s =
      (s.exSlot.map (·.instr)).any fun e => (s.idSlot.map (·.instr)).any fun d => isMul e && isMul d := by
  unfold multiplierHazard
  cases s.exSlot <;> cases s.idSlot <;> rfl

theorem rTypeDataHazard_eq_any (s : State) :
    rTypeDataHazard s =
      (s.exSlot.map (·.instr)).any fun e => (s.idSlot.map (·.instr)).any fun d => (rdOf e).any (namesReg d) := by
  unfold rTypeDataHazard
  cases s.exSlot with
  | none => rfl
  | some e =>
    cases s.idSlot with
    | none => rfl
    | some d => cases hrd : rdOf e.instr <;> simp [hrd]

theorem loadDataHazard_eq_any (s : State) :
    loadDataHazard s =
      (s.exSlot.map (·.instr)).any fun e => (s.idSlot.map (·.instr)).any fun d => (loadDestOf e).any (namesReg d) := by
  unfold loadDataHazard
  cases s.exSlot with
  | none => rfl
  | some e =>
    cases s.idSlot with
    | none => rfl
    | some d => cases hrt : loadDestOf e.instr <;> simp [hrt]

theorem controlHazard_eq_any (s : State) : controlHazard s = (s.idSlot.map (·.instr)).any isCtrl := by
  unfold controlHazard
  cases s.idSlot <;> rfl

/-- The detector reads which instructions sit in IF, ID, EX and MEM, and nothing else (42_hazard_detector.md). -/
theorem hazardDetected_congr {s t : State} (hif : s.ifSlot = t.ifSlot)
    (hid : s.idSlot.map (·.instr) = t.idSlot.map (·.instr)) (hex : s.exSlot.map (·.instr) = t.exSlot.map (·.instr))
    (hmem : s.memSlot.map (·.instr) = t.memSlot.map (·.instr)) : hazardDetected s = hazardDetected t := by
  simp only [hazardDetected, structuralHazard, dataHazard, memoryPortHazard_eq_any, multiplierHazard_eq_any,
    rTypeDataHazard_eq_any, loadDataHazard_eq_any, controlHazard_eq_any, hif, hid, hex, hmem]

@[simp] theorem hazardDetected_forwardingPhase (s : State) : hazardDetected (forwardingPhase s) = hazardDetected s :=
  hazardDetected_congr (forwardingPhase_ifSlot s) (forwardingPhase_instr s) (by rw [forwardingPhase_exSlot])
    (by rw [forwardingPhase_memSlot])

/-- Settles O25: forwarding writes cached values, which the detector does not read. -/
theorem hazardReadsOnlySlotInstructions : Obligations.HazardReadsOnlySlotInstructions := by
  unfold Obligations.HazardReadsOnlySlotInstructions
  exact ⟨fun _ _ hif hid hex hmem => hazardDetected_congr hif hid hex hmem, hazardDetected_forwardingPhase⟩

/-- Every check reads ID or MEM, so with both empty there is no hazard. -/
theorem hazardDetected_of_id_mem_empty {s : State} (hid : s.idSlot = none) (hmem : s.memSlot = none) :
    hazardDetected s = false := by
  simp [hazardDetected, structuralHazard, dataHazard, memoryPortHazard_eq_any, multiplierHazard_eq_any,
    rTypeDataHazard_eq_any, loadDataHazard_eq_any, controlHazard_eq_any, hid, hmem]

end Sys2Proof.Machine
end

section
/-! The step field by field (40_engine_step.md R141, section 8): each part of the next state over the slots of the state before,
and what follows for registers, memory, slots, `pc` and `BP`. -/

namespace Sys2Proof.Machine

/-- The EX payload a step makes of ID's payload: its result computed on the forwarded values (R156, 41_forwarding.md R180). -/
def executedSlot (s : State) : Option Payload :=
  s.idSlot.map fun d =>
    { instr := d.instr, result := exResultOf (forwardFrom s.exSlot (forwardFrom s.memSlot d)) }

/-- The ID payload a step makes of IF's instruction: registers captured after WB, the instruction possibly squashed (R160). -/
def decodedSlot (s : State) : Option IdPayload :=
  s.ifSlot.map fun i => captureOperands (controlInstr i (afterWb s)) (afterWb s)

theorem exSlotAfter_forwarded (s : State) :
    exSlotAfter { forwardingPhase s with exSlot := none } = executedSlot s := by
  unfold exSlotAfter executedSlot
  simp only [forwardingPhase_idSlot]
  cases s.idSlot with
  | none => rfl
  | some d => simp

theorem idSlotAfter_decoded (s : State) : idSlotAfter { afterWb s with idSlot := none } = decodedSlot s := by
  unfold idSlotAfter decodedSlot
  show (match s.ifSlot with
    | none => none
    | some i => some (captureOperands (controlInstr i (afterWb s)) (afterWb s))) = _
  cases s.ifSlot <;> rfl

@[simp] theorem cycleState_regs (s : State) : (cycleState s).regs = regsAfterWb s := by rw [cycleState_eq]
@[simp] theorem cycleState_pc (s : State) : (cycleState s).pc = pcAfter (afterWb s) := by rw [cycleState_eq]
@[simp] theorem cycleState_mem (s : State) : (cycleState s).mem = memoryAfter (afterWb s) := by rw [cycleState_eq]
@[simp] theorem cycleState_imem (s : State) : (cycleState s).imem = s.imem := by rw [cycleState_eq]
@[simp] theorem cycleState_idSlot (s : State) : (cycleState s).idSlot = decodedSlot s := by
  rw [cycleState_eq, idSlotAfter_decoded]
@[simp] theorem cycleState_exSlot (s : State) : (cycleState s).exSlot = executedSlot s := by
  rw [cycleState_eq, exSlotAfter_forwarded]
@[simp] theorem cycleState_memSlot (s : State) : (cycleState s).memSlot = memSlotAfter (afterWb s) := by rw [cycleState_eq]
@[simp] theorem cycleState_wbSlot (s : State) : (cycleState s).wbSlot = wbSlotAfter s := by rw [cycleState_eq]
@[simp] theorem cycleState_bp (s : State) : (cycleState s).bp = bpAfter (afterWb s) := by rw [cycleState_eq]
@[simp] theorem cycleState_stalled (s : State) : (cycleState s).stalled = hazardDetected s := by
  rw [cycleState_eq]
  exact hazardDetected_forwardingPhase s
@[simp] theorem cycleState_cycle (s : State) : (cycleState s).cycle = s.cycle + 1 := by rw [cycleState_eq]
@[simp] theorem cycleState_params (s : State) : (cycleState s).params = s.params := by rw [cycleState_eq]

theorem cycleState_ifSlot (s : State) :
    (cycleState s).ifSlot = if hazardDetected s then none else iFetch (cycleState s) (cycleState s).pc := by
  rw [cycleState_pc, cycleState_eq, hazardDetected_forwardingPhase]
  rfl

/-- Settles O9: `step_eq` gives the next state. -/
theorem stepNeverStops : Obligations.StepNeverStops := by
  unfold Obligations.StepNeverStops
  exact fun s => ⟨_, step_eq s⟩

/-- Settles O19, from what each phase writes. -/
theorem phasesEmptyTheirSource : Obligations.PhasesEmptyTheirSource := by
  unfold Obligations.PhasesEmptyTheirSource
  intro s t
  simp only [runStage_eq, phaseState_wb, phaseState_mem, phaseState_ex]
  refine ⟨fun h => ?_, fun h => ?_, fun h => ?_, fun h => ifSlot_of_runStage_id (s := s) ((runStage_eq .id s).trans h)⟩
  all_goals
    cases h
    rfl

/-- Settles O7: each phase finds its instruction in the slot it consumes, or skips. -/
theorem phaseRunsTheSlotsInstruction : Obligations.PhaseRunsTheSlotsInstruction := by
  unfold Obligations.PhaseRunsTheSlotsInstruction
  intro s
  refine ⟨fun p h => ?_, fun p h => ?_, fun p h => ?_, fun i h => ?_, fun h => ⟨s.wbSlot, ?_⟩, fun h => ?_, fun h => ?_,
    fun h => ?_⟩
  all_goals simp only [runStage, stageInstr, h, Option.map_some, Option.map_none]

/-! ### Registers and memory -/

/-- The MEM phase computes its address from the registers the step leaves, since WB precedes it (20_memory.md R63). -/
theorem effectiveAddr_cycleState (s : State) (rs : RegIdx) (offset : Int) :
    effectiveAddr (cycleState s) rs offset = effectiveAddr (afterWb s) rs offset := by
  simp only [effectiveAddr, readReg, cycleState_regs, afterWb]

theorem readReg_cycleState (s : State) (r : RegIdx) : readReg (cycleState s) r = readReg (afterWb s) r := by
  simp only [readReg, cycleState_regs, afterWb]

/-- A `sw` in EX stores its word at a valid address (45_loadstore.md R221). -/
theorem readWord_cycleState_of_sw {s : State} {rs rt : RegIdx} {offset : Int} {r : Word}
    (h : s.exSlot = some { instr := .sw rs rt offset, result := r }) (a : Nat) :
    (cycleState s).mem.readWord a =
      if validDAddr (effectiveAddr (cycleState s) rs offset) = true ∧ a = (effectiveAddr (cycleState s) rs offset).toNat
      then readReg (cycleState s) rt else s.mem.readWord a := by
  have hex : (afterWb s).exSlot = some { instr := .sw rs rt offset, result := r } := h
  rw [cycleState_mem, effectiveAddr_cycleState, readReg_cycleState, memoryAfter, hex]
  by_cases hv : validDAddr (effectiveAddr (afterWb s) rs offset) = true
  · simp only [hv, if_true, true_and, readWord_writeWord]
    rfl
  · simp only [hv, if_false, false_and, Bool.false_eq_true]
    rfl

/-- Without a `sw` in EX memory stays. -/
theorem mem_cycleState_of_not_sw {s : State}
    (h : ∀ rs rt offset r, s.exSlot ≠ some { instr := .sw rs rt offset, result := r }) :
    (cycleState s).mem = s.mem := by
  have hex : (afterWb s).exSlot = s.exSlot := rfl
  rw [cycleState_mem, memoryAfter, hex]
  cases hs : s.exSlot with
  | none => rfl
  | some p =>
    obtain ⟨i, r⟩ := p
    cases i with
    | sw rs rt offset => exact absurd hs (h rs rt offset r)
    | add rd rs rt | sub rd rs rt | mul rd rs rt | lw rs rt offset | beq rs rt offset | j target | nop => rfl

/-- Settles O29: registers from the WB phase, memory from the MEM phase, the rest from the step's fields. -/
theorem stepEffectOnRegistersAndMemory : Obligations.StepEffectOnRegistersAndMemory := by
  unfold Obligations.StepEffectOnRegistersAndMemory
  intro s t h
  obtain rfl := step_next h
  refine ⟨fun r => ?_, fun a => ?_, cycleState_imem s, cycleState_params s, cycleState_cycle s, cycleState_stalled s⟩
  · rw [readReg, cycleState_regs]
    exact regsAfterWb_read s r
  · split
    · exact readWord_cycleState_of_sw ‹_› a
    · rename_i hnot
      rw [mem_cycleState_of_not_sw fun rs rt offset r hs => hnot rs rt offset r hs]

/-! ### The slots -/

/-- The MEM phase keeps the instruction, and the result too unless it is a `lw`'s (R153). -/
theorem memSlotAfter_of_exSlot {s : State} {p : Payload} (h : s.exSlot = some p) :
    ∃ v, memSlotAfter s = some { instr := p.instr, result := v } ∧ (isLoad p.instr = false → v = p.result) := by
  obtain ⟨i, r⟩ := p
  rw [memSlotAfter, h]
  cases i with
  | lw rs rt offset => exact ⟨_, rfl, nofun⟩
  | add rd rs rt | sub rd rs rt | mul rd rs rt | sw rs rt offset | beq rs rt offset | j target | nop =>
    exact ⟨r, rfl, fun _ => rfl⟩

theorem memSlot_cycleState_of_exSlot {s : State} {p : Payload} (h : s.exSlot = some p) :
    ∃ v, (cycleState s).memSlot = some { instr := p.instr, result := v } ∧ (isLoad p.instr = false → v = p.result) := by
  rw [cycleState_memSlot]
  exact memSlotAfter_of_exSlot (s := afterWb s) h

theorem memSlot_cycleState_of_ex_empty {s : State} (h : s.exSlot = none) : (cycleState s).memSlot = none := by
  have hex : (afterWb s).exSlot = none := h
  rw [cycleState_memSlot, memSlotAfter, hex]
  rfl

theorem memSlot_instr_cycleState (s : State) :
    (cycleState s).memSlot.map (·.instr) = s.exSlot.map (·.instr) := by
  cases h : s.exSlot with
  | none => rw [memSlot_cycleState_of_ex_empty h, Option.map_none]
  | some p =>
    obtain ⟨v, hv, -⟩ := memSlot_cycleState_of_exSlot h
    rw [hv]
    rfl

theorem exSlot_instr_cycleState (s : State) :
    (cycleState s).exSlot.map (·.instr) = s.idSlot.map (·.instr) := by
  rw [cycleState_exSlot, executedSlot, Option.map_map]
  rfl

theorem exSlot_cycleState_of_idSlot {s : State} {d : IdPayload} (h : s.idSlot = some d) :
    (cycleState s).exSlot =
      some { instr := d.instr, result := exResultOf (forwardFrom s.exSlot (forwardFrom s.memSlot d)) } := by
  rw [cycleState_exSlot, executedSlot, h]
  rfl

theorem exSlot_cycleState_of_id_empty {s : State} (h : s.idSlot = none) : (cycleState s).exSlot = none := by
  rw [cycleState_exSlot, executedSlot, h]
  rfl

theorem idSlot_cycleState_of_ifSlot {s : State} {i : Instr} (h : s.ifSlot = some i) :
    (cycleState s).idSlot = some (captureOperands (controlInstr i (afterWb s)) (cycleState s)) := by
  have hcapture : ∀ k, captureOperands k (afterWb s) = captureOperands k (cycleState s) :=
    fun k => captureOperands_congr k (cycleState_regs s).symm
  rw [cycleState_idSlot, decodedSlot, h, Option.map_some, hcapture]

theorem idSlot_cycleState_of_if_empty {s : State} (h : s.ifSlot = none) : (cycleState s).idSlot = none := by
  rw [cycleState_idSlot, decodedSlot, h]
  rfl

theorem wbSlot_cycleState_of_memSlot {s : State} {p : Payload} (h : s.memSlot = some p) :
    (cycleState s).wbSlot = some p := by
  rw [cycleState_wbSlot, wbSlotAfter, h]

/-- Settles O30, slot by slot; the squash of IF's instruction is `controlInstr_cases`. -/
theorem stepMovesEverySlot : Obligations.StepMovesEverySlot := by
  unfold Obligations.StepMovesEverySlot
  intro s t h
  obtain rfl := step_next h
  refine ⟨fun p => wbSlot_cycleState_of_memSlot, memSlot_instr_cycleState s, fun p hp hload => ?_,
    exSlot_instr_cycleState s, idSlot_cycleState_of_if_empty,
    fun i hi => ⟨_, idSlot_cycleState_of_ifSlot hi, controlInstr_cases i _⟩, cycleState_ifSlot s⟩
  obtain ⟨v, hv, hkeep⟩ := memSlot_cycleState_of_exSlot hp
  rw [hv, hkeep hload]

/-! ### `pc` and `BP` -/

theorem pc_cycleState_of_ifSlot {s : State} {i : Instr} (h : s.ifSlot = some i) :
    (cycleState s).pc = controlPc i (afterWb s) := by
  have hif : (afterWb s).ifSlot = some i := h
  rw [cycleState_pc, pcAfter, hif]

theorem pc_cycleState_of_if_empty {s : State} (h : s.ifSlot = none) : (cycleState s).pc = s.pc := by
  have hif : (afterWb s).ifSlot = none := h
  rw [cycleState_pc, pcAfter, hif]
  rfl

theorem bp_cycleState_of_ifSlot {s : State} {i : Instr} (h : s.ifSlot = some i) :
    (cycleState s).bp = controlBp i (afterWb s) := by
  have hif : (afterWb s).ifSlot = some i := h
  rw [cycleState_bp, bpAfter, hif]

theorem bp_cycleState_of_if_empty {s : State} (h : s.ifSlot = none) : (cycleState s).bp = s.bp := by
  have hif : (afterWb s).ifSlot = none := h
  rw [cycleState_bp, bpAfter, hif]
  rfl

theorem controlPc_of_not_ctrl {i : Instr} (s : State) (h : isCtrl i = false) : controlPc i s = s.pc + 4 := by
  cases i with
  | beq rs rt offset | j target => cases h
  | add rd rs rt | sub rd rs rt | mul rd rs rt | lw rs rt offset | sw rs rt offset | nop => rfl

/-- A `beq` goes on at `b + 4`, or to its target if its registers are equal (46_control.md R231, R233). -/
theorem controlPc_beq_cases (rs rt : RegIdx) (offset : Int) (s : State) :
    controlPc (.beq rs rt offset) s = s.pc + 4 ∨
      (readReg s rs = readReg s rt ∧
        controlPc (.beq rs rt offset) s = beqTarget s.params.ctrlPolicy s.pc offset) := by
  simp only [controlPc, beqTaken_eq_decide, decide_eq_true_eq]
  cases s.params.ctrlPolicy with
  | predictVerify =>
    dsimp only
    split
    · rename_i h
      exact .inr ⟨h.2, rfl⟩
    · exact .inl rfl
  | resolveInDecode =>
    dsimp only
    split
    · exact .inr ⟨‹_›, rfl⟩
    · exact .inl rfl

/-- `BP` is written by a `beq` under `PredictVerify` alone, which updates the entry at `pc` (46_control.md R231, R233). -/
theorem controlBp_cases (i : Instr) (s : State) :
    controlBp i s = s.bp ∨
      (s.params.ctrlPolicy = .predictVerify ∧ (∃ rs rt offset, i = .beq rs rt offset) ∧
        ∃ taken, controlBp i s = update s.pc.toNat taken s.bp) := by
  cases i with
  | beq rs rt offset =>
    simp only [controlBp, update_bpEnsure]
    cases s.params.ctrlPolicy with
    | predictVerify => exact .inr ⟨rfl, ⟨rs, rt, offset, rfl⟩, _, rfl⟩
    | resolveInDecode => exact .inl rfl
  | add rd rs rt | sub rd rs rt | mul rd rs rt | lw rs rt offset | sw rs rt offset | j target | nop => exact .inl rfl

/-- What a step can do to `BP`: nothing, or one update at `pc` by a `beq` in IF under `PredictVerify`. -/
theorem bp_cycleState_cases (s : State) :
    (cycleState s).bp = s.bp ∨
      (s.params.ctrlPolicy = .predictVerify ∧ (∃ rs rt offset, s.ifSlot = some (.beq rs rt offset)) ∧
        ∃ taken, (cycleState s).bp = update s.pc.toNat taken s.bp) := by
  cases h : s.ifSlot with
  | none => exact .inl (bp_cycleState_of_if_empty h)
  | some i =>
    rw [bp_cycleState_of_ifSlot h]
    rcases controlBp_cases i (afterWb s) with hkeep | ⟨hpolicy, ⟨rs, rt, offset, rfl⟩, taken, hupdate⟩
    · exact .inl hkeep
    · exact .inr ⟨hpolicy, ⟨rs, rt, offset, rfl⟩, taken, hupdate⟩

/-- Settles O31: `pc` by the instruction in IF, `BP` by the two cases of `bp_cycleState_cases`. -/
theorem stepWritesPcAndPredictorOnlyFromIf : Obligations.StepWritesPcAndPredictorOnlyFromIf := by
  unfold Obligations.StepWritesPcAndPredictorOnlyFromIf
  intro s t h
  obtain rfl := step_next h
  refine ⟨pc_cycleState_of_if_empty, fun i hi hctrl => ?_, fun target hi => ?_, fun rs rt offset hi => ?_, fun a ha => ?_,
    fun hne => ?_, fun a ha => ?_⟩
  · exact (pc_cycleState_of_ifSlot hi).trans (controlPc_of_not_ctrl _ hctrl)
  · exact pc_cycleState_of_ifSlot hi
  · rw [pc_cycleState_of_ifSlot hi, readReg_cycleState, readReg_cycleState]
    exact controlPc_beq_cases rs rt offset (afterWb s)
  · rcases bp_cycleState_cases s with hkeep | ⟨-, -, taken, hupdate⟩
    · rwa [hkeep]
    · rw [hupdate, lookupAt_update]
      split
      · exact Option.some_ne_none _
      · exact ha
  · rcases bp_cycleState_cases s with hkeep | ⟨hpolicy, hbeq, -⟩
    · exact absurd hkeep hne
    · exact ⟨hpolicy, hbeq⟩
  · rcases bp_cycleState_cases s with hkeep | ⟨-, -, taken, hupdate⟩
    · rw [hkeep]
    · rw [hupdate, lookupAt_update, if_neg ha]

end Sys2Proof.Machine
end

section
/-! The canonical form (10_state.md section 2, 20_memory.md section 1): what a step puts in the slots, and that every step and
every host command keeps each clause. -/

namespace Sys2Proof.Machine

/-! ### The instructions in the slots -/

theorem mem_slotInstrsAfterIf_iff {k : Instr} {s : State} :
    k ∈ slotInstrsAfterIf s ↔
      s.idSlot.map (·.instr) = some k ∨ s.exSlot.map (·.instr) = some k ∨ s.memSlot.map (·.instr) = some k ∨
        s.wbSlot.map (·.instr) = some k := by
  simp only [slotInstrsAfterIf, List.mem_append, Option.mem_toList, or_assoc]

theorem mem_slotInstrs_iff {k : Instr} {s : State} :
    k ∈ slotInstrs s ↔ s.ifSlot = some k ∨ k ∈ slotInstrsAfterIf s := by
  simp only [mem_slotInstrsAfterIf_iff, slotInstrs, List.mem_append, Option.mem_toList, or_assoc]

/-- What the ID phase makes of IF's instruction is the one new instruction after IF: all others were there before the step. -/
theorem mem_slotInstrsAfterIf_cycleState {k : Instr} {s : State} (h : k ∈ slotInstrsAfterIf (cycleState s)) :
    k ∈ slotInstrsAfterIf s ∨ ∃ i, s.ifSlot = some i ∧ k = controlInstr i (afterWb s) := by
  rw [mem_slotInstrsAfterIf_iff, exSlot_instr_cycleState, memSlot_instr_cycleState] at h
  rw [mem_slotInstrsAfterIf_iff]
  rcases h with hid | hex | hmem | hwb
  · cases hif : s.ifSlot with
    | none =>
      rw [idSlot_cycleState_of_if_empty hif] at hid
      cases hid
    | some i =>
      rw [idSlot_cycleState_of_ifSlot hif] at hid
      cases hid
      exact .inr ⟨i, rfl, rfl⟩
  · exact .inl (.inl hex)
  · exact .inl (.inr (.inl hmem))
  · rw [cycleState_wbSlot, wbSlotAfter] at hwb
    cases hm : s.memSlot with
    | none =>
      rw [hm] at hwb
      exact .inl (.inr (.inr (.inr hwb)))
    | some p =>
      rw [hm] at hwb
      exact .inl (.inr (.inr (.inl hwb)))

/-- IF holds nothing after a step but what the store holds at `pc` (R165). -/
theorem iFetch_of_ifSlot_cycleState {s : State} {i : Instr} (h : (cycleState s).ifSlot = some i) :
    iFetch (cycleState s) (cycleState s).pc = some i := by
  rw [cycleState_ifSlot] at h
  split at h
  · cases h
  · exact h

/-! ### Fields in range, `pc` aligned -/

theorem controlInstr_wf {i : Instr} (s : State) (h : i.wf = true) : (controlInstr i s).wf = true := by
  rcases controlInstr_cases i s with hkeep | ⟨-, hnop⟩
  · rwa [hkeep]
  · rw [hnop]
    rfl

/-- A canonical store holds only instructions with their fields in range. -/
theorem wf_of_iFetch {s : State} (himem : s.imem.wf s.params) {a : Word} {i : Instr} (h : iFetch s a = some i) :
    i.wf = true :=
  (himem.2 _ (InstrStore.mem_of_fetch h)).2

theorem wrap32_four_mul_aligned (n : Int) : (wrap32 (4 * n)).toNat % 4 = 0 := by
  rw [wrap32, BitVec.toNat_ofInt]
  norm_num
  omega

theorem add_aligned {a b : Word} (ha : a.toNat % 4 = 0) (hb : b.toNat % 4 = 0) : (a + b).toNat % 4 = 0 := by
  rw [BitVec.toNat_add]
  omega

theorem beqTarget_aligned (policy : CtrlPolicy) {b : Word} (offset : Int) (h : b.toNat % 4 = 0) :
    (beqTarget policy b offset).toNat % 4 = 0 := by
  cases policy with
  | predictVerify => exact add_aligned h (wrap32_four_mul_aligned offset)
  | resolveInDecode => exact wrap32_four_mul_aligned offset

/-- Every instruction takes an aligned `pc` to an aligned one (10_state.md R29). -/
theorem controlPc_aligned (i : Instr) {s : State} (h : s.pc.toNat % 4 = 0) : (controlPc i s).toNat % 4 = 0 := by
  have hnext : (s.pc + 4).toNat % 4 = 0 := add_aligned h (by decide)
  cases i with
  | beq rs rt offset =>
    rcases controlPc_beq_cases rs rt offset s with hpc | ⟨-, hpc⟩
    · rwa [hpc]
    · rw [hpc]
      exact beqTarget_aligned _ offset h
  | j target => exact wrap32_four_mul_aligned (target : Int)
  | add rd rs rt | sub rd rs rt | mul rd rs rt | lw rs rt offset | sw rs rt offset | nop => exact hnext

theorem pc_cycleState_aligned {s : State} (h : s.pc.toNat % 4 = 0) : (cycleState s).pc.toNat % 4 = 0 := by
  cases hif : s.ifSlot with
  | none => rwa [pc_cycleState_of_if_empty hif]
  | some i =>
    rw [pc_cycleState_of_ifSlot hif]
    exact controlPc_aligned i h

/-! ### Each clause of the canonical form over a step -/

/-- The MEM phase's memory is a `dataWrite`'s, or the old one. -/
theorem memoryAfter_wf {s : State} (h : s.mem.wf) : (memoryAfter s).wf := by
  unfold memoryAfter
  cases s.exSlot with
  | none => exact h
  | some p =>
    obtain ⟨i, r⟩ := p
    cases i with
    | sw rs rt offset =>
      have hwrite := dataWrite_mem_wf s (effectiveAddr s rs offset) (readReg s rt) h
      rwa [dataWrite_mem] at hwrite
    | add rd rs rt | sub rd rs rt | mul rd rs rt | lw rs rt offset | beq rs rt offset | j target | nop => exact h

theorem bp_cycleState_wf {s : State} (h : s.bp.wf) (hpc : s.pc.toNat % 4 = 0) : (cycleState s).bp.wf := by
  rcases bp_cycleState_cases s with hkeep | ⟨-, -, taken, hupdate⟩
  · rwa [hkeep]
  · rw [hupdate]
    exact PredTable.wf_update h _ taken hpc s.pc.isLt

theorem cycleState_canonical {s : State} (h : s.Canonical) : (cycleState s).Canonical where
  memWf := by
    rw [cycleState_mem]
    exact memoryAfter_wf (s := afterWb s) h.memWf
  imemWf := by
    rw [cycleState_imem, cycleState_params]
    exact h.imemWf
  bpWf := bp_cycleState_wf h.bpWf h.pcAligned
  pcAligned := pc_cycleState_aligned h.pcAligned
  slotsWf := by
    intro k hk
    rcases mem_slotInstrs_iff.mp hk with hif | hafter
    · refine wf_of_iFetch ?_ (iFetch_of_ifSlot_cycleState hif)
      rw [cycleState_imem, cycleState_params]
      exact h.imemWf
    · rcases mem_slotInstrsAfterIf_cycleState hafter with hold | ⟨i, hi, rfl⟩
      · exact h.slotsWf k (mem_slotInstrs_iff.mpr (.inr hold))
      · exact controlInstr_wf _ (h.slotsWf i (mem_slotInstrs_iff.mpr (.inl hi)))

/-- Settles O39. -/
theorem stepKeepsCanonical : Obligations.StepKeepsCanonical := by
  unfold Obligations.StepKeepsCanonical
  intro s t h hstep
  obtain rfl := step_next hstep
  exact cycleState_canonical h

/-! ### Reset and the host commands -/

theorem resetWith_canonical (p : Params) (d : Nat) : State.Canonical { State.resetWith p with draws := d } where
  memWf := Memory.wf_nil
  imemWf := InstrStore.wf_nil p
  bpWf := PredTable.wf_nil
  pcAligned := rfl
  slotsWf := fun _ hk => absurd hk List.not_mem_nil

/-- Settles O38: the three maps are empty. -/
theorem canonicalAtReset : Obligations.CanonicalAtReset := resetWith_canonical {} 0

theorem dataWrite_canonical {s : State} (h : s.Canonical) (a : Int) (v : Word) : (dataWrite a v s).Canonical where
  memWf := dataWrite_mem_wf s a v h.memWf
  imemWf := by
    rw [dataWrite_imem, dataWrite_params]
    exact h.imemWf
  bpWf := by
    rw [dataWrite_bp]
    exact h.bpWf
  pcAligned := by
    rw [dataWrite_pc]
    exact h.pcAligned
  slotsWf := by
    simp only [slotInstrs, dataWrite_ifSlot, dataWrite_idSlot, dataWrite_exSlot, dataWrite_memSlot, dataWrite_wbSlot]
    exact h.slotsWf

theorem pokeReg_canonical {s : State} (h : s.Canonical) (idx : Nat) (v : Word) : (pokeReg idx v s).1.Canonical := by
  unfold pokeReg
  split
  · exact { h with }
  · exact h

theorem loadClear_canonical {s : State} (h : s.Canonical) : (loadClear s).Canonical :=
  { h with imemWf := InstrStore.wf_nil _, pcAligned := rfl }

theorem loadWord_canonical {s : State} (h : s.Canonical) (addr word : Word) : (loadWord addr word s).Canonical :=
  { h with imemWf := InstrStore.wf_put h.imemWf addr.toNat (decode word) }

/-- Settles O40, command by command. -/
theorem hostCommandKeepsCanonical : Obligations.HostCommandKeepsCanonical := by
  unfold Obligations.HostCommandKeepsCanonical
  intro s t c h hc hedge
  cases c with
  | step => exact absurd rfl hc
  | idle =>
    cases hedge
    exact h
  | reset =>
    cases hedge
    exact resetWith_canonical s.params s.draws
  | loadClear =>
    cases hedge
    exact loadClear_canonical h
  | loadWord addr word =>
    cases hedge
    exact loadWord_canonical h addr word
  | pokeReg idx value =>
    cases hedge
    exact pokeReg_canonical h idx value
  | pokeMem addr value =>
    cases hedge
    exact dataWrite_canonical h addr value

end Sys2Proof.Machine
end

section
/-! The pipeline invariant (10_state.md R27, R32, R38; 46_control.md R239): it holds at reset and every step keeps it. -/

namespace Sys2Proof.Machine

/-- Settles O41: the slots and the predictor table are empty. -/
theorem pipelineInvAtReset : Obligations.PipelineInvAtReset where
  fetchedAtPc := nofun
  noJump := fun _ hk => absurd hk List.not_mem_nil
  noBranch := fun _ _ _ _ hk => absurd hk List.not_mem_nil
  bpEmpty := fun _ => rfl
  idCache := nofun

/-- `Control` squashes every `j` (46_control.md R235). -/
theorem controlInstr_ne_j (i : Instr) (s : State) (target : Nat) : controlInstr i s ≠ .j target := by
  rcases controlInstr_cases i s with hkeep | ⟨-, hnop⟩
  · intro h
    have hi : i = .j target := hkeep.symm.trans h
    subst hi
    cases h
  · rw [hnop]
    nofun

/-- Under `ResolveInDecode` `Control` squashes every `beq` (46_control.md R233). -/
theorem controlInstr_ne_beq (i : Instr) {s : State} (hpolicy : s.params.ctrlPolicy = .resolveInDecode) (rs rt : RegIdx)
    (offset : Int) : controlInstr i s ≠ .beq rs rt offset := by
  rcases controlInstr_cases i s with hkeep | ⟨-, hnop⟩
  · intro h
    have hi : i = .beq rs rt offset := hkeep.symm.trans h
    subst hi
    simp only [controlInstr, hpolicy] at h
    cases h
  · rw [hnop]
    nofun

theorem cycleState_pipelineInv {s : State} (h : s.PipelineInv) : (cycleState s).PipelineInv where
  fetchedAtPc := fun _ => iFetch_of_ifSlot_cycleState
  noJump := by
    intro target hk
    rcases mem_slotInstrsAfterIf_cycleState hk with hold | ⟨i, -, heq⟩
    · exact h.noJump target hold
    · exact controlInstr_ne_j i _ target heq.symm
  noBranch := by
    intro hpolicy rs rt offset hk
    rw [cycleState_params] at hpolicy
    rcases mem_slotInstrsAfterIf_cycleState hk with hold | ⟨i, -, heq⟩
    · exact h.noBranch hpolicy rs rt offset hold
    · exact controlInstr_ne_beq i (s := afterWb s) hpolicy rs rt offset heq.symm
  bpEmpty := by
    intro hpolicy
    rw [cycleState_params] at hpolicy
    rcases bp_cycleState_cases s with hkeep | ⟨hverify, -⟩
    · rw [hkeep, h.bpEmpty hpolicy]
    · rw [hpolicy] at hverify
      cases hverify
  idCache := by
    intro p hp
    cases hif : s.ifSlot with
    | none =>
      rw [idSlot_cycleState_of_if_empty hif] at hp
      cases hp
    | some i =>
      rw [idSlot_cycleState_of_ifSlot hif] at hp
      cases hp
      rfl

/-- Settles O42. -/
theorem stepKeepsPipelineInv : Obligations.StepKeepsPipelineInv := by
  unfold Obligations.StepKeepsPipelineInv
  intro s t h hstep
  obtain rfl := step_next hstep
  exact cycleState_pipelineInv h

end Sys2Proof.Machine
end

section
/-! The pipeline against the sequential meaning (40_engine_step.md R174): a step moves each pending effect one slot on, so that
the instructions in flight amount to the same before and after, but for the instruction that the ID phase takes from IF. -/

namespace Sys2Proof.Machine

/-! ### What one instruction amounts to in each slot -/

/-- A `beq` or `j` has no effect on registers and memory, whether squashed or not. -/
theorem seqData_controlInstr (i : Instr) (s : State) (d : DataState) : seqData (controlInstr i s) d = seqData i d := by
  rcases controlInstr_cases i s with hkeep | ⟨hctrl, hnop⟩
  · rw [hkeep]
  · rw [hnop]
    rcases isCtrl_iff.mp hctrl with ⟨rs, rt, offset, rfl⟩ | ⟨target, rfl⟩
    · rfl
    · rfl

/-- An R-type's sequential meaning is its EX result on its registers' values. -/
theorem seqData_of_rd {i : Instr} {rd : RegIdx} (h : rdOf i = some rd) (d : DataState) :
    ∃ rs rt, rsOf i = some rs ∧ rtOf i = some rt ∧
      seqData i d = d.setReg rd ((armsOf i).exResult (d.reg rs) (d.reg rt)) := by
  cases i with
  | add rd' rs rt | sub rd' rs rt | mul rd' rs rt =>
    cases h
    exact ⟨rs, rt, rfl, rfl, rfl⟩
  | lw rs rt offset | sw rs rt offset | beq rs rt offset | j target | nop => cases h

theorem isR_of_rd {i : Instr} {rd : RegIdx} (h : rdOf i = some rd) : isR i = true := by
  cases i with
  | add rd' rs rt | sub rd' rs rt | mul rd' rs rt => rfl
  | lw rs rt offset | sw rs rt offset | beq rs rt offset | j target | nop => cases h

theorem finishEx_of_rd {p : Payload} {rd : RegIdx} (h : rdOf p.instr = some rd) (d : DataState) :
    finishEx (some p) d = d.setReg rd p.result := by
  simp only [finishEx, h]

theorem finishEx_of_no_rd {p : Payload} (h : rdOf p.instr = none) (d : DataState) :
    finishEx (some p) d = seqData p.instr d := by
  simp only [finishEx, h]

/-! ### From EX to MEM -/

/-- Registers and memory once the instruction in MEM is done: what the MEM phase reads. -/
theorem finishMem_eq_dataOf_afterWb (s : State) : finishMem s.memSlot (dataOf s) = dataOf (afterWb s) := finishMem_dataOf s

/-- The condition on a `lw` in EX speaks of the address the MEM phase computes (20_memory.md R67, R79). -/
theorem validDAddr_of_loadAddrValid {s : State} (h : loadAddrValid s) :
    ∀ rs rt offset r, s.exSlot = some { instr := .lw rs rt offset, result := r } →
      validDAddr (effectiveAddr (afterWb s) rs offset) = true := by
  intro rs rt offset r hex
  have hv := h rs rt offset r hex
  rwa [finishMem_eq_dataOf_afterWb] at hv

/-- The MEM phase does an access and leaves the register write: finishing MEM after it is finishing EX before it. -/
theorem finishMem_memSlotAfter {s : State}
    (hvalid : ∀ rs rt offset r, s.exSlot = some { instr := .lw rs rt offset, result := r } →
      validDAddr (effectiveAddr s rs offset) = true) (hempty : s.memSlot = none) :
    finishMem (memSlotAfter s) { regs := s.regs, mem := memoryAfter s } = finishEx s.exSlot (dataOf s) := by
  unfold memSlotAfter memoryAfter
  cases h : s.exSlot with
  | none => simp only [hempty, finishMem, finishEx, dataOf]
  | some p =>
    obtain ⟨i, r⟩ := p
    cases i with
    | add rd rs rt | sub rd rs rt | mul rd rs rt | beq rs rt offset | j target | nop => rfl
    | lw rs rt offset =>
      have hv : validDAddr (signed ((dataOf s).reg rs) + offset) = true := hvalid rs rt offset r h
      simp only [if_pos (hvalid rs rt offset r h), finishEx, rdOf, seqData, if_pos hv]
      rfl
    | sw rs rt offset =>
      simp only [finishEx, rdOf, seqData]
      by_cases hv : validDAddr (effectiveAddr s rs offset) = true
      · have hv' : validDAddr (signed ((dataOf s).reg rs) + offset) = true := hv
        rw [if_pos hv, if_pos hv']
        rfl
      · have hv' : ¬ validDAddr (signed ((dataOf s).reg rs) + offset) = true := hv
        rw [if_neg hv, if_neg hv']
        rfl

/-- Finishing MEM after a step is finishing MEM and EX before it. -/
theorem finishMem_cycleState {s : State} (hvalid : loadAddrValid s) :
    finishMem (cycleState s).memSlot (dataOf (cycleState s)) = finishEx s.exSlot (finishMem s.memSlot (dataOf s)) := by
  have haddr := validDAddr_of_loadAddrValid hvalid
  rw [finishMem_eq_dataOf_afterWb s, dataOf, cycleState_memSlot, cycleState_regs, cycleState_mem]
  exact finishMem_memSlotAfter (s := afterWb s) haddr rfl

/-! ### From ID to EX -/

/-- Forwarding gives a spaced register field the value its register has once EX and MEM are done (41_forwarding.md R183,
70_reset_and_hazards.md R332, R334). -/
theorem forwardedValue_eq_finished {s : State} {r : RegIdx}
    (hex : ∀ e, s.exSlot = some e → loadDestOf e.instr ≠ some r)
    (hmem : ∀ m, s.memSlot = some m → loadDestOf m.instr = some r → ∃ e, s.exSlot = some e ∧ rdOf e.instr = some r) :
    forwardedValue s.exSlot (some r) (forwardedValue s.memSlot (some r) (readReg s r)) =
      (finishEx s.exSlot (finishMem s.memSlot (dataOf s))).reg r := by
  by_cases hsource : ∃ e, s.exSlot = some e ∧ rdOf e.instr = some r
  · obtain ⟨e, he, hrd⟩ := hsource
    rw [forwardedValue_of_source _ he hrd rfl, he]
    rw [finishEx_of_rd hrd, DataState.reg_setReg, if_pos rfl]
  · have hexRd : ∀ e, s.exSlot = some e → rdOf e.instr ≠ some r := fun e he hrd => hsource ⟨e, he, hrd⟩
    have hexDest : ∀ e, s.exSlot = some e → destOf e.instr ≠ some r := fun e he hdest =>
      (destOf_eq_some_iff.mp hdest).elim (hexRd e he) (hex e he)
    have hreg : (finishMem s.memSlot (dataOf s)).reg r = (regsAfterWb s)[r.val] := by
      rw [finishMem_dataOf]
      rfl
    rw [finishEx_reg_of_ne _ _ _ hexDest, forwardedValue_of_no_source _ (no_source_of_rd_ne rfl hexRd), hreg]
    cases hm : s.memSlot with
    | none =>
      rw [regsAfterWb_read, hm]
      rfl
    | some m =>
      have hdest : destOf m.instr = some r ↔ rdOf m.instr = some r :=
        destOf_eq_some_iff.trans (or_iff_left fun hload => hsource (hmem m hm hload))
      rw [regsAfterWb_of_memSlot hm]
      by_cases hrd : rdOf m.instr = some r
      · rw [forwardedValue_of_source _ rfl hrd rfl, if_pos (hdest.mpr hrd)]
      · rw [forwardedValue_of_no_source _ (no_source_of_rd_ne rfl fun p hp => by cases hp; exact hrd),
          if_neg fun h => hrd (hdest.mp h)]
        rfl

/-- Finishing EX after a step is finishing ID before it, on the state with EX and MEM done. -/
theorem finishEx_executedSlot {s : State} (hcache : ∀ p, s.idSlot = some p → p = captureOperands p.instr s)
    (hspaced : loadUseSpaced s) :
    finishEx (executedSlot s) (finishEx s.exSlot (finishMem s.memSlot (dataOf s))) =
      finishId s.idSlot (finishEx s.exSlot (finishMem s.memSlot (dataOf s))) := by
  unfold executedSlot
  cases hid : s.idSlot with
  | none => rfl
  | some d =>
    rw [Option.map_some, finishId]
    cases hrd : rdOf d.instr with
    | none => exact finishEx_of_no_rd hrd _
    | some rd =>
      obtain ⟨rs, rt, hrs, hrt, hseq⟩ := seqData_of_rd hrd (finishEx s.exSlot (finishMem s.memSlot (dataOf s)))
      have hd := hcache d hid
      have hrsValue : d.rsValue = readReg s rs := by rw [hd, captureOperands, hrs, readField]
      have hrtValue : d.rtValue = readReg s rt := by rw [hd, captureOperands, hrt, readField]
      obtain ⟨hexRs, hmemRs⟩ := hspaced d hid (isR_of_rd hrd) rs (namesReg_iff.mpr (.inl hrs))
      obtain ⟨hexRt, hmemRt⟩ := hspaced d hid (isR_of_rd hrd) rt (namesReg_iff.mpr (.inr hrt))
      rw [hseq, finishEx_of_rd (p := { instr := d.instr, result := _ }) hrd, forwardFrom_eq s.memSlot,
        forwardFrom_eq s.exSlot, exResultOf]
      simp only [hrs, hrt, hrsValue, hrtValue, forwardedValue_eq_finished hexRs hmemRs,
        forwardedValue_eq_finished hexRt hmemRt]

/-- Settles O43: the pending effects of EX and MEM, of ID, and of IF, each moved one slot on. -/
theorem stepRefinesSequentialData : Obligations.StepRefinesSequentialData := by
  unfold Obligations.StepRefinesSequentialData
  intro s t hcache hspaced hvalid hstep
  obtain rfl := step_next hstep
  have holder : finishEx (cycleState s).exSlot (finishMem (cycleState s).memSlot (dataOf (cycleState s))) = completed s := by
    rw [finishMem_cycleState hvalid, cycleState_exSlot, finishEx_executedSlot hcache hspaced, completed]
  rw [completed, holder]
  cases hif : s.ifSlot with
  | none =>
    rw [idSlot_cycleState_of_if_empty hif]
    rfl
  | some i =>
    rw [idSlot_cycleState_of_ifSlot hif]
    exact seqData_controlInstr i _ _

/-! ### `pc` -/

/-- A register that no instruction in ID or EX writes has its final value once the WB phase is done. -/
theorem completed_reg_of_spaced {s : State} {r : RegIdx} (hid : ∀ d, s.idSlot = some d → destOf d.instr ≠ some r)
    (hex : ∀ e, s.exSlot = some e → destOf e.instr ≠ some r) :
    (completed s).reg r = (finishMem s.memSlot (dataOf s)).reg r := by
  rw [completed, finishId_reg_of_ne _ _ _ hid, finishEx_reg_of_ne _ _ _ hex]

theorem readReg_afterWb (s : State) (r : RegIdx) : readReg (afterWb s) r = (finishMem s.memSlot (dataOf s)).reg r := by
  rw [finishMem_eq_dataOf_afterWb]
  rfl

/-- A `beq` whose taken outcome is mispredicted goes where its condition says (46_control.md R231, R233). -/
theorem controlPc_beq_of_mispredicted {s : State} {rs rt : RegIdx} {offset : Int}
    (hmiss : s.params.ctrlPolicy = .predictVerify → readReg s rs = readReg s rt →
      counterTaken (bpCounter s.pc.toNat s.bp) = false) :
    controlPc (.beq rs rt offset) s =
      if readReg s rs = readReg s rt then beqTarget s.params.ctrlPolicy s.pc offset else s.pc + 4 := by
  simp only [controlPc, beqTaken_eq_decide, decide_eq_true_eq]
  cases hpolicy : s.params.ctrlPolicy with
  | predictVerify =>
    by_cases htaken : readReg s rs = readReg s rt
    · simp [htaken, hmiss hpolicy htaken]
    · simp [htaken]
  | resolveInDecode => rfl

/-- Settles O44: only a `beq` reads registers, and its two have their final values at the ID phase. -/
theorem stepRefinesSequentialPc : Obligations.StepRefinesSequentialPc := by
  unfold Obligations.StepRefinesSequentialPc
  intro s t hspaced hmiss hstep
  obtain rfl := step_next hstep
  cases hif : s.ifSlot with
  | none => exact pc_cycleState_of_if_empty hif
  | some i =>
    rw [pc_cycleState_of_ifSlot hif]
    cases i with
    | add rd rs rt | sub rd rs rt | mul rd rs rt | lw rs rt offset | sw rs rt offset | j target | nop => rfl
    | beq rs rt offset =>
      have hfinal : ∀ r, r = rs ∨ r = rt → (completed s).reg r = readReg (afterWb s) r := fun r hr => by
        obtain ⟨hid, hex⟩ := hspaced rs rt offset hif r hr
        rw [completed_reg_of_spaced hid hex, readReg_afterWb]
      have hmiss' : (afterWb s).params.ctrlPolicy = .predictVerify →
          readReg (afterWb s) rs = readReg (afterWb s) rt →
          counterTaken (bpCounter (afterWb s).pc.toNat (afterWb s).bp) = false := fun hpolicy htaken => by
        rw [readReg_afterWb, readReg_afterWb] at htaken
        exact hmiss hpolicy rs rt offset hif htaken
      simp only [controlPc_beq_of_mispredicted hmiss', seqNextPc, hfinal rs (.inl rfl), hfinal rt (.inr rfl)]
      rfl

/-! ### Runs -/

/-- A run is the step iterated: it never stops. -/
theorem runFor_eq_iterate (k : Nat) (s : State) : runFor k s = .next (cycleState^[k] s) := by
  induction k generalizing s with
  | zero => rfl
  | succ k ih => rw [runFor_succ, ih, Function.iterate_succ_apply]

/-- With nothing in flight nothing is left to do. -/
theorem completed_of_drained {t : State} (h : drained t) : completed t = dataOf t := by
  obtain ⟨-, hid, hex, hmem, -⟩ := h
  rw [completed, hid, hex, hmem]
  rfl

/-- Under the conditions of R174 at one step, the step is one sequential execution, or none if IF is empty. -/
theorem seqRun_of_step {s : State} (hinv : s.PipelineInv) (hfree : hazardFree s) (n : Nat) :
    seqRun s.params s.imem ((if s.ifSlot.isSome then 1 else 0) + n) s.pc (completed s) =
      seqRun s.params s.imem n (cycleState s).pc (completed (cycleState s)) := by
  obtain ⟨hspaced, hbranch, hvalid, hmiss⟩ := hfree
  have hdata := stepRefinesSequentialData s _ hinv.idCache hspaced hvalid (step_eq s)
  have hpc := stepRefinesSequentialPc s _ hbranch hmiss (step_eq s)
  cases hif : s.ifSlot with
  | none =>
    rw [hif] at hdata hpc
    rw [hdata, hpc, Option.isSome_none, if_neg Bool.false_ne_true, Nat.zero_add]
  | some i =>
    rw [hif] at hdata hpc
    have hfetch : s.imem.fetch s.params s.pc.toNat = some i := hinv.fetchedAtPc i hif
    rw [hdata, hpc, Option.isSome_some, if_pos rfl, Nat.add_comm, seqRun, hfetch]

/-- A run whose every state meets the conditions is a sequential execution of the instructions it decodes. -/
theorem seqRun_of_hazardFree (n : Nat) {s : State} (hinv : s.PipelineInv)
    (hfree : ∀ k, k < n → hazardFree (cycleState^[k] s)) :
    seqRun s.params s.imem (decodedCount n s) s.pc (completed s) =
      some ((cycleState^[n] s).pc, completed (cycleState^[n] s)) := by
  induction n generalizing s with
  | zero => rfl
  | succ n ih =>
    have hrest := ih (cycleState_pipelineInv hinv) fun k hk => hfree (k + 1) (Nat.succ_lt_succ hk)
    rw [cycleState_params, cycleState_imem] at hrest
    rw [decodedCount_succ, seqRun_of_step hinv (hfree 0 (Nat.succ_pos n)), hrest, Function.iterate_succ_apply]

/-- Settles O45, by induction on the number of steps. -/
theorem runRefinesSequentialExecution : Obligations.RunRefinesSequentialExecution := by
  unfold Obligations.RunRefinesSequentialExecution
  refine ⟨fun n s t hinv hfree hrun => ?_, fun t => completed_of_drained⟩
  rw [runFor_eq_iterate] at hrun
  cases hrun
  exact seqRun_of_hazardFree n hinv fun k hk => hfree k hk _ (runFor_eq_iterate k s)

end Sys2Proof.Machine
end

section
/-! Each instruction in each of its phases (40_engine_step.md sections 2 to 5): `exec` in a phase once, over the instruction's
arms, and the six statements read off the arms. -/

namespace Sys2Proof.Machine

/-! ### The three results modulo 2^32 (44_arith.md R210 to R212, decision D2) -/

theorem addResult_eq (a b : Word) : addResult a b = a + b := by
  rw [addResult, wrap32, signed, signed, BitVec.ofInt_add, BitVec.ofInt_toInt, BitVec.ofInt_toInt]

theorem subResult_eq (a b : Word) : subResult a b = a - b := by
  rw [subResult, wrap32, signed, signed, Int.sub_eq_add_neg, BitVec.ofInt_add, BitVec.ofInt_neg, BitVec.ofInt_toInt,
    BitVec.ofInt_toInt, BitVec.sub_eq_add_neg]

theorem mulResult_eq (a b : Word) : mulResult a b = a * b := by
  rw [mulResult, wrap32, signed, signed, BitVec.ofInt_mul, BitVec.ofInt_toInt, BitVec.ofInt_toInt]

/-! ### `exec` in the phases after ID -/

theorem exec_of_stage_ex (i : Instr) {s : State} {p : IdPayload} (hstage : s.stage = .ex) (hp : s.idSlot = some p) :
    exec i s = .next
      { s with exSlot := some { instr := i, result := (armsOf i).exResult p.rsValue p.rtValue }, idSlot := none } := by
  simp only [exec_eq, actArms, hstage, exPhase, hp]

theorem exec_of_stage_mem (i : Instr) {s : State} {p : Payload} (hstage : s.stage = .mem) (hp : s.exSlot = some p) :
    exec i s = .next
      { ((armsOf i).memAccess p.result s).2 with
        memSlot := some { instr := i, result := ((armsOf i).memAccess p.result s).1 }, exSlot := none } := by
  simp only [exec_eq, actArms, hstage, memPhase, hp]

theorem exec_of_stage_wb (i : Instr) {s : State} {p : Payload} (hstage : s.stage = .wb) (hp : s.memSlot = some p) :
    exec i s = .next
      { (armsOf i).wbWrite p.result s with
        wbSlot := some { instr := i, result := p.result }, memSlot := none } := by
  simp only [exec_eq, actArms, hstage, wbPhase, hp]

/-- An R-type instruction, by its result function. -/
theorem rTypeEffect_of_arms {i : Instr} {rd rs rt : RegIdx} {f : Word → Word → Word} (hrs : rsOf i = some rs)
    (hrt : rtOf i = some rt) (hctrl : ∀ s, controlPc i s = s.pc + 4 ∧ controlBp i s = s.bp ∧ controlInstr i s = i)
    {g : Word → Word → Word} (harms : armsOf i = rTypeArms rd g) (hg : ∀ a b, g a b = f a b) (s : State) :
    rTypeEffect i rd rs rt f s := by
  refine ⟨fun h => ?_, fun h p hp => ?_, fun h p hp => ?_, fun h p hp => ?_⟩
  · obtain ⟨hpc, hbp, hinstr⟩ := hctrl s
    rw [exec_of_stage_id i h, hpc, hbp, hinstr, captureOperands, hrs, hrt]
    rfl
  · have hresult : (armsOf i).exResult p.rsValue p.rtValue = f p.rsValue p.rtValue := by
      rw [harms]
      exact hg _ _
    rw [exec_of_stage_ex i h hp, hresult]
  · rw [exec_of_stage_mem i h hp, harms]
    rfl
  · rw [exec_of_stage_wb i h hp, harms]
    rfl

/-- Settles O10: the three instructions share their arms, and their results are the three word operations. -/
theorem arithmeticEffectInEveryPhase : Obligations.ArithmeticEffectInEveryPhase := by
  unfold Obligations.ArithmeticEffectInEveryPhase
  intro rd rs rt s
  exact ⟨rTypeEffect_of_arms rfl rfl (fun _ => ⟨rfl, rfl, rfl⟩) rfl addResult_eq s,
    rTypeEffect_of_arms rfl rfl (fun _ => ⟨rfl, rfl, rfl⟩) rfl subResult_eq s,
    rTypeEffect_of_arms rfl rfl (fun _ => ⟨rfl, rfl, rfl⟩) rfl mulResult_eq s⟩

/-- Settles O11: the access of a `lw` by the validity of its address; the other phases from the arms. -/
theorem loadEffectInEveryPhase : Obligations.LoadEffectInEveryPhase := by
  unfold Obligations.LoadEffectInEveryPhase
  intro rs rt offset s
  refine ⟨fun h => exec_of_stage_id _ h, fun h p hp => ⟨_, exec_of_stage_ex _ h hp⟩, fun h p hp hv => ?_,
    fun h p hp hv => ?_, fun h p hp => exec_of_stage_wb _ h hp⟩
  · have haccess := loadWordAccess_valid rs offset p.result s hv
    simp only [exec_of_stage_mem _ h hp, armsOf, haccess]
  · have haccess := loadWordAccess_invalid rs offset p.result s hv
    simp only [exec_of_stage_mem _ h hp, armsOf, haccess]

theorem dataWrite_valid (s : State) {a : Int} (v : Word) (h : validDAddr a = true) :
    dataWrite a v s = { s with mem := s.mem.writeWord a.toNat v } := if_pos h

/-- Settles O12: the access of a `sw` is one data write, which an invalid address makes no write. -/
theorem storeEffectInEveryPhase : Obligations.StoreEffectInEveryPhase := by
  unfold Obligations.StoreEffectInEveryPhase
  intro rs rt offset s
  refine ⟨fun h => exec_of_stage_id _ h, fun h p hp => ⟨_, exec_of_stage_ex _ h hp⟩,
    fun h p hp hv => ⟨s.mem.writeWord (effectiveAddr s rs offset).toNat (readReg s rt), ?_, ?_⟩, fun h p hp hv => ?_,
    fun h p hp => exec_of_stage_wb _ h hp⟩
  · simp only [exec_of_stage_mem _ h hp, armsOf, storeWordAccess, dataWrite_valid s _ hv]
  · exact fun a => readWord_writeWord s.mem _ a _
  · simp only [exec_of_stage_mem _ h hp, armsOf, storeWordAccess, dataWrite_invalid s _ _ hv]

/-- Settles O15: the boolean of a `beq` is 1 or 0. -/
theorem branchLaterPhases : Obligations.BranchLaterPhases := by
  unfold Obligations.BranchLaterPhases
  refine ⟨fun b => if b then 1 else 0, by decide, fun rs rt offset s => ⟨fun h p hp => ?_,
    fun h p hp => exec_of_stage_mem _ h hp, fun h p hp => exec_of_stage_wb _ h hp⟩⟩
  simp only [exec_of_stage_ex _ h hp, armsOf, beqResult, decide_eq_true_eq]

theorem jTarget_toNat (target : Nat) : (jTarget target).toNat = 4 * target % 2 ^ 32 := by
  rw [jTarget, wrap32, BitVec.toNat_ofInt]
  norm_num
  omega

/-- Settles O16: `pc` is the wrapped byte address, which a target in range does not wrap. -/
theorem jumpEffectInEveryPhase : Obligations.JumpEffectInEveryPhase := by
  unfold Obligations.JumpEffectInEveryPhase
  intro target s
  refine ⟨fun h => ⟨jTarget target, exec_of_stage_id _ h, jTarget_toNat target, fun hrange => ?_⟩,
    fun h p hp => ⟨_, exec_of_stage_ex _ h hp⟩, fun h p hp => exec_of_stage_mem _ h hp,
    fun h p hp => exec_of_stage_wb _ h hp⟩
  simp only [targetInRange, decide_eq_true_eq] at hrange
  rw [jTarget_toNat, Nat.mod_eq_of_lt]
  omega

/-- Settles O17, from the arms of `nop`. -/
theorem nopEffectInEveryPhase : Obligations.NopEffectInEveryPhase := by
  unfold Obligations.NopEffectInEveryPhase
  exact fun s => ⟨fun h => exec_of_stage_id _ h, fun h p hp => ⟨_, exec_of_stage_ex _ h hp⟩,
    fun h p hp => exec_of_stage_mem _ h hp, fun h p hp => exec_of_stage_wb _ h hp⟩

end Sys2Proof.Machine
end

section
/-! What a step does not depend on (10_state.md sections 3 and 5), and that a `lw` is never forwarded (41_forwarding.md R184). -/

namespace Sys2Proof.Machine

/-- The next state written out over the slots of the state before. -/
theorem cycleState_eq_slots (s : State) :
    cycleState s =
      { regs    := regsAfterWb s
        pc      := pcAfter (afterWb s)
        mem     := memoryAfter (afterWb s)
        imem    := s.imem
        ifSlot  := if hazardDetected s then none else iFetch s (pcAfter (afterWb s))
        idSlot  := decodedSlot s
        exSlot  := executedSlot s
        memSlot := memSlotAfter (afterWb s)
        wbSlot  := wbSlotAfter s
        bp      := bpAfter (afterWb s)
        stalled := hazardDetected s
        cycle   := s.cycle + 1
        stage   := .id
        draws   := drawsAfter (afterWb s)
        params  := s.params } := by
  rw [cycleState_eq, exSlotAfter_forwarded, idSlotAfter_decoded, hazardDetected_forwardingPhase]

/-- A `lw` in EX loads its word at a valid address (45_loadstore.md R220). -/
theorem memSlotAfter_of_lw {s : State} {rs rt : RegIdx} {offset : Int} {r : Word}
    (hex : s.exSlot = some { instr := .lw rs rt offset, result := r })
    (hvalid : validDAddr (effectiveAddr s rs offset) = true) :
    memSlotAfter s =
      some { instr := .lw rs rt offset, result := s.mem.readWord (effectiveAddr s rs offset).toNat } := by
  simp only [memSlotAfter, hex, if_pos hvalid]

/-- Only a `lw` with an invalid address draws a value. -/
theorem memSlotAfter_withDraws {s : State} (k : Nat)
    (hvalid : ∀ rs rt offset r, s.exSlot = some { instr := .lw rs rt offset, result := r } →
      validDAddr (effectiveAddr s rs offset) = true) :
    memSlotAfter { s with draws := k } = memSlotAfter s := by
  cases hex : s.exSlot with
  | none => simp only [memSlotAfter, hex]
  | some p =>
    obtain ⟨i, r⟩ := p
    cases i with
    | lw rs rt offset =>
      have hv := hvalid rs rt offset r hex
      rw [← hex]
      exact (memSlotAfter_of_lw (s := { s with draws := k }) hex hv).trans (memSlotAfter_of_lw hex hv).symm
    | add rd rs rt | sub rd rs rt | mul rd rs rt | sw rs rt offset | beq rs rt offset | j target | nop =>
      simp only [memSlotAfter, hex]

/-- Settles O33: no part of the next state but `cycle`, WB, `draws` and the loaded word reads the four fields. -/
theorem cycleWbAndOldFlagHaveNoEffect : Obligations.CycleWbAndOldFlagHaveNoEffect := by
  unfold Obligations.CycleWbAndOldFlagHaveNoEffect
  intro s t n k w flag hstep
  obtain rfl := step_next hstep
  refine ⟨n + 1, drawsAfter { afterWb s with draws := k }, wbSlotAfter { s with wbSlot := w },
    (cycleState { s with cycle := n, wbSlot := w, stalled := flag, draws := k }).memSlot, ?_, ?_, fun hvalid => ?_⟩
  · rw [step_eq, cycleState_eq_slots, cycleState_eq_slots]
    rfl
  · rw [memSlot_instr_cycleState, memSlot_instr_cycleState]
  · have haddr := validDAddr_of_loadAddrValid hvalid
    rw [cycleState_memSlot, cycleState_memSlot]
    exact memSlotAfter_withDraws (s := afterWb s) k haddr

theorem rdOf_eq_none_of_not_isR {i : Instr} (h : isR i = false) : rdOf i = none :=
  Option.eq_none_iff_forall_ne_some.mpr fun rd hrd => by
    rw [isR_of_rd hrd] at h
    cases h

/-- A slot without an R-type forwards nothing (41_forwarding.md R184). -/
theorem forwardFrom_of_no_rd {source : Option Payload} (d : IdPayload)
    (h : ∀ p, source = some p → rdOf p.instr = none) : forwardFrom source d = d := by
  have hno : ∀ field, ∀ p, source = some p → rdOf p.instr = none ∨ field ≠ rdOf p.instr := fun _ p hp => .inl (h p hp)
  rw [forwardFrom_eq, forwardedValue_of_no_source _ (hno _), forwardedValue_of_no_source _ (hno _)]

/-- Without an R-type in EX or MEM the EX phase computes on the cached values. -/
theorem exSlot_cycleState_of_no_source {s : State} {d : IdPayload} (hid : s.idSlot = some d)
    (hex : ∀ e, s.exSlot = some e → rdOf e.instr = none) (hmem : ∀ m, s.memSlot = some m → rdOf m.instr = none) :
    (cycleState s).exSlot = some { instr := d.instr, result := exResultOf d } := by
  rw [exSlot_cycleState_of_idSlot hid, forwardFrom_of_no_rd d hmem, forwardFrom_of_no_rd d hex]

theorem exResultOf_add {d : IdPayload} {rd a b : RegIdx} (h : d.instr = .add rd a b) :
    exResultOf d = d.rsValue + d.rtValue := by
  rw [exResultOf, h]
  exact addResult_eq _ _

theorem exResultOf_sub {d : IdPayload} {rd a b : RegIdx} (h : d.instr = .sub rd a b) :
    exResultOf d = d.rsValue - d.rtValue := by
  rw [exResultOf, h]
  exact subResult_eq _ _

theorem exResultOf_mul {d : IdPayload} {rd a b : RegIdx} (h : d.instr = .mul rd a b) :
    exResultOf d = d.rsValue * d.rtValue := by
  rw [exResultOf, h]
  exact mulResult_eq _ _

/-- The destination of the instruction in EX named in ID stalls the step (42_hazard_detector.md R192, R193). -/
theorem hazardDetected_of_dest_named {s : State} {e : Payload} {d : IdPayload} {r : RegIdx} (hex : s.exSlot = some e)
    (hid : s.idSlot = some d) (hdest : destOf e.instr = some r) (hname : namesReg d.instr r = true) :
    hazardDetected s = true := by
  have hdata : dataHazard s = true := (dataHazardExactly s).mpr ⟨e, d, r, hex, hid, hdest, namesReg_iff.mp hname⟩
  rw [hazardDetected, hdata, Bool.or_true, Bool.true_or]

/-- Settles O32: neither EX nor MEM is a source, and the load's destination in ID is a data hazard. -/
theorem loadIsNeverForwarded : Obligations.LoadIsNeverForwarded := by
  unfold Obligations.LoadIsNeverForwarded
  intro s t d rs rt offset r hid _ hex hmem hstep
  obtain rfl := step_next hstep
  have hexRd : ∀ e, s.exSlot = some e → rdOf e.instr = none := fun e he => by
    rw [hex] at he
    cases he
    rfl
  have hmemRd : ∀ m, s.memSlot = some m → rdOf m.instr = none := fun m hm => rdOf_eq_none_of_not_isR (hmem m hm)
  refine ⟨⟨_, exSlot_cycleState_of_no_source hid hexRd hmemRd, fun _ _ _ => exResultOf_add,
    fun _ _ _ => exResultOf_sub, fun _ _ _ => exResultOf_mul⟩, fun hname => ?_⟩
  have hstall : hazardDetected s = true := hazardDetected_of_dest_named hex hid rfl hname
  rw [cycleState_stalled, cycleState_ifSlot, hstall]
  exact ⟨rfl, rfl⟩

end Sys2Proof.Machine
end

section
/-! Holes, the drained state and the steps after Reset (40_engine_step.md R173, 47_nop.md, 70_reset_and_hazards.md Part 1). -/

namespace Sys2Proof.Machine

theorem iFetch_cycleState (s : State) (a : Word) : iFetch (cycleState s) a = iFetch s a := by
  rw [iFetch, cycleState_imem, cycleState_params, iFetch]

theorem regs_cycleState_of_mem_empty {s : State} (h : s.memSlot = none) : (cycleState s).regs = s.regs := by
  rw [cycleState_regs, regsAfterWb, h]

theorem mem_cycleState_of_ex_empty {s : State} (h : s.exSlot = none) : (cycleState s).mem = s.mem :=
  mem_cycleState_of_not_sw fun rs rt offset r => by
    rw [h]
    nofun

/-- A hole with IF empty is left by no step: `pc` waits there (47_nop.md R254). -/
theorem hole_cycleState {s : State} (hif : s.ifSlot = none) (hhole : iFetch s s.pc = none) :
    (cycleState s).ifSlot = none ∧ (cycleState s).pc = s.pc ∧ iFetch (cycleState s) (cycleState s).pc = none := by
  have hpc := pc_cycleState_of_if_empty hif
  have hfetch : iFetch (cycleState s) (cycleState s).pc = none := by rw [iFetch_cycleState, hpc, hhole]
  refine ⟨?_, hpc, hfetch⟩
  rw [cycleState_ifSlot, hfetch]
  split <;> rfl

/-- A step from a drained state, whole: the count goes on and the flag is cleared. -/
theorem cycleState_of_drained {s : State} (h : drained s) :
    cycleState s = { s with cycle := s.cycle + 1, stalled := false, stage := .id } := by
  obtain ⟨hif, hid, hex, hmem, hhole⟩ := h
  have hregs : regsAfterWb s = s.regs := by rw [regsAfterWb, hmem]
  have hafter : afterWb s = s := by rw [afterWb, hregs, ← hmem]
  have hpc : pcAfter s = s.pc := by rw [pcAfter, hif]
  rw [cycleState_eq_slots, hafter, hregs, hpc, hhole, hazardDetected_of_id_mem_empty hid hmem]
  simp only [memoryAfter, decodedSlot, executedSlot, memSlotAfter, wbSlotAfter, bpAfter, drawsAfter, hif, hid, hex, hmem,
    Option.map_none, ite_self]

/-- Settles O36, from the whole next state. -/
theorem drainedStepOnlyCounts : Obligations.DrainedStepOnlyCounts := by
  unfold Obligations.DrainedStepOnlyCounts
  intro s h
  refine ⟨⟨s.wbSlot, by rw [step_eq, cycleState_of_drained h]⟩, fun t hstep => ?_⟩
  rw [step_next hstep, cycleState_of_drained h]
  exact h

/-- The reset state is drained, whatever its cycle count: the store is empty. -/
theorem drained_hostReset (s : State) (k : Nat) : drained { hostReset s with cycle := k } :=
  ⟨rfl, rfl, rfl, rfl, iFetch_resetWith s.params s.draws 0⟩

/-- Settles O35, by induction on the number of steps. -/
theorem stepsAfterResetOnlyCount : Obligations.StepsAfterResetOnlyCount := by
  unfold Obligations.StepsAfterResetOnlyCount
  intro s k
  rw [runFor_eq_iterate]
  congr 1
  induction k with
  | zero => rfl
  | succ k ih =>
    rw [Function.iterate_succ_apply', ih, cycleState_of_drained (drained_hostReset s k)]
    rfl

/-- Any number of steps at a hole. -/
theorem hole_iterate {s : State} (hif : s.ifSlot = none) (hhole : iFetch s s.pc = none) (k : Nat) :
    (cycleState^[k] s).ifSlot = none ∧ (cycleState^[k] s).pc = s.pc ∧
      iFetch (cycleState^[k] s) (cycleState^[k] s).pc = none := by
  induction k with
  | zero => exact ⟨hif, rfl, hhole⟩
  | succ k ih =>
    obtain ⟨hif', hpc', hhole'⟩ := ih
    rw [Function.iterate_succ_apply']
    obtain ⟨hif'', hpc'', hhole''⟩ := hole_cycleState hif' hhole'
    exact ⟨hif'', hpc''.trans hpc', hhole''⟩

/-- Three steps at a hole empty ID, EX and MEM one after the other. -/
theorem drained_of_hole {s : State} (hif : s.ifSlot = none) (hhole : iFetch s s.pc = none) :
    drained (cycleState^[3] s) := by
  have hempty : ∀ k, (cycleState^[k + 1] s).idSlot = none := fun k => by
    rw [Function.iterate_succ_apply']
    exact idSlot_cycleState_of_if_empty (hole_iterate hif hhole k).1
  have hex : ∀ k, (cycleState^[k + 2] s).exSlot = none := fun k => by
    rw [Function.iterate_succ_apply']
    exact exSlot_cycleState_of_id_empty (hempty k)
  have hmem : (cycleState^[3] s).memSlot = none := by
    rw [Function.iterate_succ_apply']
    exact memSlot_cycleState_of_ex_empty (hex 0)
  obtain ⟨hif', -, hhole'⟩ := hole_iterate hif hhole 3
  exact ⟨hif', hempty 2, hex 1, hmem, hhole'⟩

/-- Settles O37: from three steps on, the last three drain what the steps before them left in flight. -/
theorem holeFreezesPc : Obligations.HoleFreezesPc := by
  unfold Obligations.HoleFreezesPc
  intro s hif hhole k
  obtain ⟨hif', hpc', -⟩ := hole_iterate hif hhole k
  refine ⟨_, runFor_eq_iterate k s, hpc', hif', fun hk => ?_⟩
  obtain ⟨m, rfl⟩ := Nat.exists_eq_add_of_le hk
  obtain ⟨hif'', -, hhole''⟩ := hole_iterate hif hhole m
  rw [Function.iterate_add_apply]
  exact drained_of_hole hif'' hhole''

end Sys2Proof.Machine
end

section
/-! The life of one instruction (40_engine_step.md section 8, 70_reset_and_hazards.md Part 3): fetched into an empty pipeline it
is in EX after three steps, whatever is fetched behind it; then its access and its register write. -/

namespace Sys2Proof.Machine

theorem controlInstr_of_not_ctrl {i : Instr} (s : State) (h : isCtrl i = false) : controlInstr i s = i := by
  rcases controlInstr_cases i s with hkeep | ⟨hctrl, -⟩
  · exact hkeep
  · rw [h] at hctrl
    cases hctrl

/-- After three steps the instruction is in EX with the result of its registers' values; registers and memory are untouched. -/
theorem exSlot_after_three_of_alone {s : State} {i : Instr} (h : aloneAtPc s i) (hctrl : isCtrl i = false) :
    (cycleState^[3] s).regs = s.regs ∧ (cycleState^[3] s).mem = s.mem ∧ (cycleState^[3] s).memSlot = none ∧
      (cycleState^[3] s).exSlot = some { instr := i, result := exResultOf (captureOperands i s) } := by
  obtain ⟨hif, hid, hex, hmem, hfetch⟩ := h
  have hif1 : (cycleState s).ifSlot = some i := by
    rw [cycleState_ifSlot, hazardDetected_of_id_mem_empty hid hmem, iFetch_cycleState, pc_cycleState_of_if_empty hif]
    exact hfetch
  have hid1 := idSlot_cycleState_of_if_empty hif
  have hex1 := exSlot_cycleState_of_id_empty hid
  have hmem1 := memSlot_cycleState_of_ex_empty hex
  have hregs2 : (cycleState (cycleState s)).regs = s.regs :=
    (regs_cycleState_of_mem_empty hmem1).trans (regs_cycleState_of_mem_empty hmem)
  have hid2 : (cycleState (cycleState s)).idSlot = some (captureOperands i s) := by
    rw [idSlot_cycleState_of_ifSlot hif1, controlInstr_of_not_ctrl _ hctrl, captureOperands_congr i hregs2]
  have hex2 := exSlot_cycleState_of_id_empty hid1
  have hmem2 := memSlot_cycleState_of_ex_empty hex1
  refine ⟨(regs_cycleState_of_mem_empty hmem2).trans hregs2, ?_, memSlot_cycleState_of_ex_empty hex2, ?_⟩
  · exact (mem_cycleState_of_ex_empty hex2).trans
      ((mem_cycleState_of_ex_empty hex1).trans (mem_cycleState_of_ex_empty hex))
  · exact exSlot_cycleState_of_no_source hid2 (by rw [hex2]; nofun) (by rw [hmem2]; nofun)

/-- The WB phase writes the destination of MEM's instruction. -/
theorem regs_cycleState_of_dest {s : State} {p : Payload} {r : RegIdx} (hmem : s.memSlot = some p)
    (hdest : destOf p.instr = some r) : (cycleState s).regs = s.regs.set r.val p.result := by
  obtain ⟨i, v⟩ := p
  rw [cycleState_regs, regsAfterWb, hmem]
  cases i with
  | add rd rs rt | sub rd rs rt | mul rd rs rt | lw rs rt offset =>
    cases hdest
    rfl
  | sw rs rt offset | beq rs rt offset | j target | nop => cases hdest

/-- After five steps the register of an instruction that writes one holds what the MEM phase of the fourth step passed on. -/
theorem regs_after_five_of_alone {s : State} {i : Instr} {r : RegIdx} {v : Word} (h : aloneAtPc s i)
    (hctrl : isCtrl i = false) (hdest : destOf i = some r)
    (hmem : (cycleState (cycleState^[3] s)).memSlot = some { instr := i, result := v }) :
    ∃ t, runFor 5 s = .next t ∧ t.regs = s.regs.set r.val v := by
  obtain ⟨hregs3, -, hmem3, -⟩ := exSlot_after_three_of_alone h hctrl
  have hregs4 : (cycleState (cycleState^[3] s)).regs = s.regs := (regs_cycleState_of_mem_empty hmem3).trans hregs3
  refine ⟨_, runFor_eq_iterate 5 s, ?_⟩
  rw [Function.iterate_succ_apply', Function.iterate_succ_apply', regs_cycleState_of_dest hmem hdest, hregs4]

theorem regs_after_five_of_rType {s : State} {i : Instr} {rd : RegIdx} {v : Word} (hrd : rdOf i = some rd)
    (hctrl : isCtrl i = false) (hload : isLoad i = false) (hresult : exResultOf (captureOperands i s) = v)
    (h : aloneAtPc s i) : ∃ t, runFor 5 s = .next t ∧ t.regs = s.regs.set rd.val v := by
  obtain ⟨-, -, -, hex3⟩ := exSlot_after_three_of_alone h hctrl
  obtain ⟨w, hmem4, hpass⟩ := memSlot_cycleState_of_exSlot hex3
  rw [hpass hload, hresult] at hmem4
  exact regs_after_five_of_alone h hctrl (destOf_eq_some_iff.mpr (.inl hrd)) hmem4

/-- Settles O46. -/
theorem arithmeticWritesInFifthStep : Obligations.ArithmeticWritesInFifthStep := by
  unfold Obligations.ArithmeticWritesInFifthStep
  intro s rd rs rt
  exact ⟨regs_after_five_of_rType rfl rfl rfl (exResultOf_add rfl),
    regs_after_five_of_rType rfl rfl rfl (exResultOf_sub rfl),
    regs_after_five_of_rType rfl rfl rfl (exResultOf_mul rfl)⟩

theorem memSlot_cycleState_of_lw {s : State} {rs rt : RegIdx} {offset : Int} {r : Word}
    (hex : s.exSlot = some { instr := .lw rs rt offset, result := r })
    (hvalid : validDAddr (effectiveAddr (cycleState s) rs offset) = true) :
    (cycleState s).memSlot =
      some { instr := .lw rs rt offset, result := s.mem.readWord (effectiveAddr (cycleState s) rs offset).toNat } := by
  rw [effectiveAddr_cycleState] at hvalid ⊢
  rw [cycleState_memSlot]
  exact memSlotAfter_of_lw (s := afterWb s) hex hvalid

/-- An address depends on the register file alone. -/
theorem effectiveAddr_congr {s t : State} (h : s.regs = t.regs) (rs : RegIdx) (offset : Int) :
    effectiveAddr s rs offset = effectiveAddr t rs offset := by
  simp only [effectiveAddr, readReg, h]

/-- Settles O47: the access is the fourth step's, with the registers of the start. -/
theorem loadAndStoreAccessInFourthStep : Obligations.LoadAndStoreAccessInFourthStep := by
  unfold Obligations.LoadAndStoreAccessInFourthStep
  intro s rs rt offset hvalid
  refine ⟨fun h => ?_, fun h => ?_⟩
  · obtain ⟨hregs3, hdata3, hmem3, hex3⟩ := exSlot_after_three_of_alone h rfl
    have haddr := effectiveAddr_congr ((regs_cycleState_of_mem_empty hmem3).trans hregs3) rs offset
    have hmem4 := memSlot_cycleState_of_lw hex3 (by rw [haddr, hvalid])
    rw [haddr, hdata3] at hmem4
    exact regs_after_five_of_alone h rfl rfl hmem4
  · obtain ⟨hregs3, hdata3, hmem3, hex3⟩ := exSlot_after_three_of_alone h rfl
    have hregs4 := (regs_cycleState_of_mem_empty hmem3).trans hregs3
    refine ⟨_, runFor_eq_iterate 4 s, ?_, fun a => ?_⟩
    · rw [Function.iterate_succ_apply', hregs4]
    · rw [Function.iterate_succ_apply', readWord_cycleState_of_sw hex3, effectiveAddr_congr hregs4, readReg, hregs4, hdata3]
      simp only [hvalid, true_and]
      rfl

end Sys2Proof.Machine
end

section
/-! The instruction placed at `pc` is the one the ID phase hands to `exec` (40_engine_step.md R141, 50_host_interface.md R265). -/

namespace Sys2Proof.Machine

/-- The phases before ID leave IF as it is, so the ID phase acts on the instruction IF held before the step. -/
theorem step_of_ifSlot {t : State} {i : Instr} (h : t.ifSlot = some i) :
    step t =
      andThen (runStage .wb (hazardPhase (forwardingPhase t))) fun s1 =>
      andThen (runStage .mem s1) fun s2 =>
      andThen (runStage .ex s2) fun s3 =>
      andThen (exec i { s3 with stage := .id }) fun s4 =>
      .next (tick (ifPhase s4)) := by
  have hif : (phaseState .ex (phaseState .mem (phaseState .wb (hazardPhase (forwardingPhase t))))).ifSlot = some i := by
    rw [phaseState_ex, phaseState_mem, phaseState_wb]
    exact (forwardingPhase_ifSlot t).trans h
  simp only [step, engineStep, runStage_eq .wb, runStage_eq .mem, runStage_eq .ex, andThen]
  simp only [runStage, stageInstr, hif]

/-- What a loaded word leaves at each address (50_host_interface.md R265): what it decodes to, which always has its fields in
range, at a storable one. -/
theorem iFetch_loadWord (addr word a : Word) (s : State) :
    iFetch (loadWord addr word s) a =
      if a = addr then (if storableAt s.params addr.toNat then decode word else none) else iFetch s a := by
  have hfilter : (decode word).filter (·.wf) = decode word := by
    cases h : decode word with
    | none => rfl
    | some i => simp [Option.filter, decodedFieldsInRange word i h]
  have hput := InstrStore.fetch_put s.params s.imem addr.toNat a.toNat (decode word)
  rw [hfilter] at hput
  simp only [BitVec.toNat_inj] at hput
  exact hput

/-- Settles O6: the fetch of the first step finds the word's instruction, and the second step hands it on. -/
theorem stepRunsTheDecodedInstruction : Obligations.StepRunsTheDecodedInstruction := by
  unfold Obligations.StepRunsTheDecodedInstruction
  intro s w i hdecode hif hstall hstorable
  have hpc : (cycleState (loadWord s.pc w s)).pc = s.pc := pc_cycleState_of_if_empty (s := loadWord s.pc w s) hif
  have hfetch : (cycleState (loadWord s.pc w s)).ifSlot = some i := by
    have hstall' : hazardDetected (loadWord s.pc w s) = false := hstall
    rw [cycleState_ifSlot, hstall', iFetch_cycleState, hpc, iFetch_loadWord, if_pos rfl, if_pos hstorable]
    exact hdecode
  exact ⟨_, step_eq _, hfetch, hpc, step_of_ifSlot hfetch⟩

/-- A 32-bit word by its number (30_encoding.md R100). -/
theorem decodeTableWord_toNat (w : Word) : decodeTableWord 32 w.toNat = decode w := by
  have hlt : w.toNat % 2 ^ 32 = w.toNat := Nat.mod_eq_of_lt w.isLt
  rw [decodeTableWord, hlt, if_pos w.isLt, BitVec.ofNat_toNat, BitVec.setWidth_eq]

/-- Settles O8. -/
theorem fetchWordRunsNext : Obligations.FetchWordRunsNext := by
  unfold Obligations.FetchWordRunsNext
  intro s w i hdecode
  have hplaced : s.withFetchWord 32 w.toNat =
      { s with imem := s.imem.put s.params s.pc.toNat (some i), ifSlot := some i } := by
    rw [State.withFetchWord, decodeTableWord_toNat, hdecode]
    rfl
  rw [hplaced]
  exact ⟨rfl, step_of_ifSlot rfl⟩

end Sys2Proof.Machine
end

section
/-! Load of words, Inject and Inspect (50_host_interface.md R262 to R267, decisions D10, D18, D23). -/

namespace Sys2Proof.Machine

/-- The extent without the bound of 2^32 bytes, which every word address meets (20_memory.md R69, R70). -/
theorem storableAt_toNat_iff (p : Params) (a : Word) :
    storableAt p a.toNat = true ↔ a.toNat % 4 = 0 ∧ ∀ n, p.imemWords = some n → a.toNat / 4 < n := by
  have hlt : a.toNat < 2 ^ 32 := a.isLt
  simp only [storableAt, inExtent, hlt, decide_true, Bool.true_and, Bool.and_eq_true, decide_eq_true_eq]
  cases p.imemWords with
  | none => simp
  | some n => simp

/-- Settles O48: the store after a load is `iFetch_loadWord`'s; every other field is untouched by definition. -/
theorem loadStoresDecodedWords : Obligations.LoadStoresDecodedWords := by
  unfold Obligations.LoadStoresDecodedWords
  intro s addr word
  refine ⟨⟨[], rfl, fun a => InstrStore.fetch_nil s.params a.toNat⟩, ⟨_, rfl⟩, ?_, fun a ha => ?_⟩
  · rw [iFetch_loadWord, if_pos rfl]
    simp only [storableAt_toNat_iff]
  · rw [iFetch_loadWord, if_neg ha]

theorem pokeReg_of_lt {n : Nat} (h : n < 32) (v : Word) (s : State) : pokeReg n v s = (writeReg ⟨n, h⟩ v s, true) :=
  dif_pos h

theorem pokeReg_of_ge {n : Nat} (h : 32 ≤ n) (v : Word) (s : State) : pokeReg n v s = (s, false) :=
  dif_neg (Nat.not_lt.mpr h)

theorem peekReg_of_lt {n : Nat} (h : n < 32) (s : State) : peekReg n s = some (readReg s ⟨n, h⟩) := dif_pos h

theorem peekReg_of_ge {n : Nat} (h : 32 ≤ n) (s : State) : peekReg n s = none := dif_neg (Nat.not_lt.mpr h)

/-- An injected register is read back, and no other is changed (50_host_interface.md R266). -/
theorem peekReg_pokeReg {n : Nat} (h : n < 32) (m : Nat) (v : Word) (s : State) :
    peekReg m (pokeReg n v s).1 = if m = n then some v else peekReg m s := by
  rw [pokeReg_of_lt h]
  by_cases hm : m < 32
  · rw [peekReg_of_lt hm, peekReg_of_lt hm, readReg_writeReg]
    simp only [Fin.mk.injEq]
    split <;> rfl
  · have hne : m ≠ n := fun heq => hm (heq ▸ h)
    rw [if_neg hne, peekReg_of_ge (Nat.le_of_not_lt hm), peekReg_of_ge (Nat.le_of_not_lt hm)]

/-- Settles O50: registers by `peekReg_pokeReg`, tokens by their register, words by `dataRead_dataWrite`. -/
theorem injectAndInspect : Obligations.InjectAndInspect := by
  unfold Obligations.InjectAndInspect
  intro s v
  refine ⟨fun r => pokeReg_of_lt r.isLt v s, fun n hn => ⟨pokeReg_of_ge hn v s, peekReg_of_ge hn s⟩,
    fun n m hn => peekReg_pokeReg hn m v s, fun token r htoken => ?_, fun token htoken => ?_,
    fun a ha => ⟨s.mem.writeWord a.toNat v, ?_⟩, fun a ha => ⟨?_, ?_⟩, fun a b ha => dataRead_dataWrite s a b v ha⟩
  · rw [pokeRegToken, htoken, pokeReg_of_lt r.isLt]
  · rw [pokeRegToken, htoken]
  · rw [pokeMem, dataWrite_valid s v ha, ha]
  · rw [pokeMem, dataWrite_invalid s a v ha, ha]
  · rw [peekMem, dataRead, ha, if_neg Bool.false_ne_true]

end Sys2Proof.Machine
end

section
/-! Load of source text (50_host_interface.md R262, R264; 30_encoding.md R121 to R123): the assembler's entries have rising
addresses, multiples of 4, and a program of rising addresses is stored entry by entry without overwriting. -/

namespace Sys2Proof.Machine

/-! ### The assembler's entries -/

theorem wf_of_parseInstr {policy : CtrlPolicy} {table : List (List Char × Nat)} {b : Nat} {text : List Char} {i : Instr}
    (h : parseInstr policy table b text = some i) : i.wf = true := by
  unfold parseInstr at h
  split at h
  · split at h
    · cases h
      assumption
    · cases h
  · cases h

/-- The instruction a source line gives at byte address `a`: none for a line without text or a rejected one. -/
def lineInstr (policy : CtrlPolicy) (table : List (List Char × Nat)) (a : Nat) (line : SourceLine) : Option Instr :=
  if line.text.isEmpty then none else parseInstr policy table (a / 4) line.text

theorem entries_translateLines_cons (policy : CtrlPolicy) (table : List (List Char × Nat)) (a n : Nat) (line : SourceLine)
    (lines : List SourceLine) :
    (translateLines policy table a n (line :: lines)).entries =
      ((lineInstr policy table a line).map fun i => (a, i)).toList ++
        (translateLines policy table (addressAfter a line) (n + 1) lines).entries := by
  rw [translateLines, lineInstr]
  cases line.text.isEmpty with
  | true => rfl
  | false =>
    simp only [Bool.false_eq_true, if_false]
    cases parseInstr policy table (a / 4) line.text <;> rfl

/-- A line that gives an instruction consumes 4 bytes (30_encoding.md R121), and its instruction is well-formed. -/
theorem lineInstr_eq_some {policy : CtrlPolicy} {table : List (List Char × Nat)} {a : Nat} {line : SourceLine} {i : Instr}
    (h : lineInstr policy table a line = some i) : addressAfter a line = a + 4 ∧ i.wf = true := by
  unfold lineInstr at h
  split at h
  · cases h
  · exact ⟨if_neg ‹_›, wf_of_parseInstr h⟩

theorem addressAfter_cases (a : Nat) (line : SourceLine) : addressAfter a line = a ∨ addressAfter a line = a + 4 := by
  unfold addressAfter
  split
  · exact .inl rfl
  · exact .inr rfl

/-- An entry lies at or after the starting address, a multiple of 4 from it, and is well-formed. -/
theorem entry_of_translateLines {policy : CtrlPolicy} {table : List (List Char × Nat)} {lines : List SourceLine} {a n : Nat}
    {e : Nat × Instr} (h : e ∈ (translateLines policy table a n lines).entries) :
    a ≤ e.1 ∧ e.1 % 4 = a % 4 ∧ e.2.wf = true := by
  induction lines generalizing a n with
  | nil => exact absurd h List.not_mem_nil
  | cons line lines ih =>
    rw [entries_translateLines_cons, List.mem_append, Option.mem_toList, Option.map_eq_some_iff] at h
    rcases h with ⟨i, hi, rfl⟩ | h
    · exact ⟨Nat.le_refl a, rfl, (lineInstr_eq_some hi).2⟩
    · obtain ⟨hle, hmod, hwf⟩ := ih h
      have hafter := addressAfter_cases a line
      exact ⟨by omega, by omega, hwf⟩

theorem keysAscend_translateLines (policy : CtrlPolicy) (table : List (List Char × Nat)) (a n : Nat)
    (lines : List SourceLine) : keysAscend (translateLines policy table a n lines).entries := by
  induction lines generalizing a n with
  | nil => exact List.Pairwise.nil
  | cons line lines ih =>
    rw [entries_translateLines_cons]
    cases hi : lineInstr policy table a line with
    | none => exact ih _ _
    | some i =>
      refine List.pairwise_cons.mpr ⟨fun e he => ?_, ih _ _⟩
      have hafter := (lineInstr_eq_some hi).1
      have hle := (entry_of_translateLines he).1
      show a < e.1
      omega

/-! ### Storing a program -/

/-- The store after a program's entries are put into it, one by one. -/
def storeProgram (p : Params) (program : List (Nat × Instr)) (m : InstrStore) : InstrStore :=
  program.foldl (fun m e => m.put p e.1 (some e.2)) m

/-- A Load touches the store and `pc` alone (50_host_interface.md R262, R263). -/
theorem loadProgram_eq (program : List (Nat × Instr)) (s : State) :
    loadProgram program s = { s with imem := storeProgram s.params program [], pc := 0 } := by
  have hfold : ∀ t : State, program.foldl (fun t e => loadInstr e.1 e.2 t) t =
      { t with imem := storeProgram t.params program t.imem } := by
    induction program with
    | nil => exact fun t => rfl
    | cons e program ih => exact fun t => ih (loadInstr e.1 e.2 t)
  exact hfold (loadClear s)

theorem fetch_put_some {p : Params} (m : InstrStore) (a : Nat) {i : Instr} (hi : i.wf = true) :
    (m.put p a (some i)).fetch p a = if storableAt p a then some i else none := by
  rw [InstrStore.fetch_put, if_pos rfl, Option.filter_some, if_pos hi]

/-- An address that no entry names keeps what it held. -/
theorem fetch_storeProgram_of_not_mem {p : Params} {program : List (Nat × Instr)} (m : InstrStore) {a : Nat}
    (h : ∀ e ∈ program, e.1 ≠ a) : (storeProgram p program m).fetch p a = m.fetch p a := by
  induction program generalizing m with
  | nil => rfl
  | cons e program ih =>
    have hrest := ih (m.put p e.1 (some e.2)) fun d hd => h d (List.mem_cons_of_mem e hd)
    rw [InstrStore.fetch_put, if_neg (h e List.mem_cons_self).symm] at hrest
    exact hrest

/-- With rising addresses every entry survives the ones after it. -/
theorem fetch_storeProgram_of_mem {p : Params} {program : List (Nat × Instr)} (m : InstrStore)
    (hasc : keysAscend program) {e : Nat × Instr} (he : e ∈ program) (hwf : e.2.wf = true)
    (hstorable : storableAt p e.1 = true) : (storeProgram p program m).fetch p e.1 = some e.2 := by
  induction program generalizing m with
  | nil => exact absurd he List.not_mem_nil
  | cons d program ih =>
    obtain ⟨hd, hrest⟩ := List.pairwise_cons.mp hasc
    rcases List.mem_cons.mp he with rfl | he
    · refine (fetch_storeProgram_of_not_mem (m.put p e.1 (some e.2)) fun f hf => Nat.ne_of_gt (hd f hf)).trans ?_
      rw [fetch_put_some m e.1 hwf, if_pos hstorable]
    · exact ih (m.put p d.1 (some d.2)) hrest he

/-- What is fetched was an entry, or in the store before. -/
theorem mem_of_fetch_storeProgram {p : Params} {program : List (Nat × Instr)} {m : InstrStore} {a : Nat} {i : Instr}
    (h : (storeProgram p program m).fetch p a = some i) : (a, i) ∈ program ∨ m.fetch p a = some i := by
  induction program generalizing m with
  | nil => exact .inr h
  | cons e program ih =>
    rcases ih (m := m.put p e.1 (some e.2)) h with hmem | hfetch
    · exact .inl (List.mem_cons_of_mem e hmem)
    · rw [InstrStore.fetch_put] at hfetch
      split at hfetch
      · rename_i ha
        split at hfetch
        · have hi : some e.2 = some i := (Option.filter_eq_some_iff.mp hfetch).1
          cases hi
          subst ha
          exact .inl List.mem_cons_self
        · cases hfetch
      · exact .inr hfetch

/-! ### The statement -/

theorem loadSource_fst (source : List Char) (s : State) :
    (loadSource source s).1 = loadProgram (assemble s.params.ctrlPolicy source).entries s := rfl

theorem iFetch_loadProgram (program : List (Nat × Instr)) (s : State) (a : Word) :
    iFetch (loadProgram program s) a = (storeProgram s.params program []).fetch s.params a.toNat := by
  rw [loadProgram_eq, iFetch]

/-- What a Load of source text leaves in the store is one of the assembler's entries. -/
theorem mem_entries_of_iFetch_loadSource {s : State} {source : List Char} {a : Word} {i : Instr}
    (h : iFetch (loadSource source s).1 a = some i) : (a.toNat, i) ∈ (assemble s.params.ctrlPolicy source).entries := by
  rw [loadSource_fst, iFetch_loadProgram] at h
  refine (mem_of_fetch_storeProgram h).resolve_right ?_
  rw [InstrStore.fetch_nil]
  nofun

/-- Every entry within the extent is fetched at its address. -/
theorem iFetch_loadSource_of_mem {s : State} {source : List Char} {e : Nat × Instr}
    (he : e ∈ (assemble s.params.ctrlPolicy source).entries) (hextent : inExtent s.params e.1 = true) :
    iFetch (loadSource source s).1 (BitVec.ofNat 32 e.1) = some e.2 := by
  obtain ⟨-, hmod, hwf⟩ := entry_of_translateLines he
  have hlt : e.1 < 2 ^ 32 := by
    simp only [inExtent, Bool.and_eq_true, decide_eq_true_eq] at hextent
    exact hextent.1
  have hstorable : storableAt s.params e.1 = true := by
    rw [storableAt, hextent, hmod]
    rfl
  rw [loadSource_fst, iFetch_loadProgram, BitVec.toNat_ofNat, Nat.mod_eq_of_lt hlt]
  exact fetch_storeProgram_of_mem [] (keysAscend_translateLines ..) he hwf hstorable

theorem accepted_eq_false_iff (s : State) (source : List Char) :
    (loadSource source s).2.accepted = false ↔ (assemble s.params.ctrlPolicy source).entries = [] := by
  rw [loadSource, Bool.not_eq_false', List.isEmpty_iff]

/-- Settles O49: the entries are stored, and nothing but entries. -/
theorem sourceLoadStoresAcceptedLines : Obligations.SourceLoadStoresAcceptedLines := by
  unfold Obligations.SourceLoadStoresAcceptedLines
  intro s source
  refine ⟨⟨_, loadProgram_eq _ s⟩, fun e he => ⟨(entry_of_translateLines he).2.1, iFetch_loadSource_of_mem he⟩,
    fun a i => mem_entries_of_iFetch_loadSource, accepted_eq_false_iff s source, fun hnone a => ?_, rfl⟩
  refine Option.eq_none_iff_forall_ne_some.mpr fun i hi => ?_
  have hmem := mem_entries_of_iFetch_loadSource hi
  rw [(accepted_eq_false_iff s source).mp hnone] at hmem
  exact List.not_mem_nil hmem

end Sys2Proof.Machine
end

section
/-! The assembler reads canonical text back (30_encoding.md Part 3): a mnemonic, a blank and operands joined by commas are taken
apart into the same mnemonic and operands, and each operand is read back by the laws of its tokens. -/

namespace Sys2Proof.Machine

/-! ### Operands joined by commas -/

/-- The text of an operand: not empty, with no blank and no comma in it. -/
def IsOperand (l : List Char) : Prop := l ≠ [] ∧ ∀ c ∈ l, isBlankChar c = false ∧ c ≠ ','

/-- Operands with `renderComma` between them. -/
def joinOperands : List (List Char) → List Char
  | []           => []
  | [l]          => l
  | l :: m :: ls => l ++ renderComma ++ joinOperands (m :: ls)

theorem trimBlanks_of_isOperand {l : List Char} (h : IsOperand l) : trimBlanks l = l :=
  trimBlanks_of_no_blank l fun c hc => (h.2 c hc).1

theorem comma_not_mem_of_isOperand {l : List Char} (h : IsOperand l) : ',' ∉ l := fun hc => (h.2 _ hc).2 rfl

theorem splitAtChar_ne_nil (sep : Char) (l : List Char) : splitAtChar sep l ≠ [] := by
  cases l with
  | nil => exact List.cons_ne_nil _ _
  | cons c cs =>
    rw [splitAtChar]
    split
    · exact List.cons_ne_nil _ _
    · split <;> exact List.cons_ne_nil _ _

/-- A blank after a comma belongs to the next part, where it is trimmed. -/
theorem map_trimBlanks_splitAtChar_blank (l : List Char) :
    (splitAtChar ',' (' ' :: l)).map trimBlanks = (splitAtChar ',' l).map trimBlanks := by
  rw [splitAtChar, if_neg (by decide)]
  cases h : splitAtChar ',' l with
  | nil => exact absurd h (splitAtChar_ne_nil ',' l)
  | cons m ms => simp only [List.map_cons, trimBlanks_cons_blank ' ' m rfl]

/-- Joined operands are split and trimmed back into the operands. -/
theorem map_trimBlanks_splitAtChar_joinOperands {ls : List (List Char)} (hne : ls ≠ []) (h : ∀ l ∈ ls, IsOperand l) :
    (splitAtChar ',' (joinOperands ls)).map trimBlanks = ls := by
  match ls with
  | [] => exact absurd rfl hne
  | [l] =>
    have hl := h l List.mem_cons_self
    rw [joinOperands, splitAtChar_of_not_mem _ _ (comma_not_mem_of_isOperand hl), List.map_singleton,
      trimBlanks_of_isOperand hl]
  | l :: m :: ls =>
    have hl := h l List.mem_cons_self
    have hrest := map_trimBlanks_splitAtChar_joinOperands (List.cons_ne_nil m ls)
      fun k hk => h k (List.mem_cons_of_mem l hk)
    have hjoin : joinOperands (l :: m :: ls) = l ++ ',' :: ' ' :: joinOperands (m :: ls) := by
      rw [joinOperands, List.append_assoc]
      rfl
    rw [hjoin, splitAtChar_append _ _ _ (comma_not_mem_of_isOperand hl), List.map_cons, map_trimBlanks_splitAtChar_blank,
      hrest, trimBlanks_of_isOperand hl]

/-! ### Trimming at the ends -/

theorem dropWhile_isBlankChar_of_head {l : List Char} (h : ∀ c, l.head? = some c → isBlankChar c = false) :
    l.dropWhile isBlankChar = l := by
  cases l with
  | nil => rfl
  | cons c cs => exact List.dropWhile_cons_of_neg (by rw [h c rfl]; exact Bool.false_ne_true)

theorem trimBlanks_of_head_getLast {l : List Char} (hhead : ∀ c, l.head? = some c → isBlankChar c = false)
    (hlast : ∀ c, l.getLast? = some c → isBlankChar c = false) : trimBlanks l = l := by
  have hreverse : ∀ c, l.reverse.head? = some c → isBlankChar c = false := by
    rw [List.head?_reverse]
    exact hlast
  rw [trimBlanks, dropWhile_isBlankChar_of_head hhead, dropWhile_isBlankChar_of_head hreverse, List.reverse_reverse]

theorem joinOperands_ne_nil {ls : List (List Char)} (hne : ls ≠ []) (h : ∀ l ∈ ls, IsOperand l) :
    joinOperands ls ≠ [] := by
  match ls with
  | [] => exact absurd rfl hne
  | [l] => exact (h l List.mem_cons_self).1
  | l :: m :: ls =>
    rw [joinOperands, List.append_assoc]
    exact List.append_ne_nil_of_left_ne_nil (h l List.mem_cons_self).1 _

/-- Joined operands begin with the first one's first character. -/
theorem head?_joinOperands {ls : List (List Char)} (h : ∀ l ∈ ls, IsOperand l) {c : Char}
    (hc : (joinOperands ls).head? = some c) : isBlankChar c = false := by
  match ls with
  | [] => cases hc
  | [l] => exact ((h l List.mem_cons_self).2 c (List.mem_of_mem_head? hc)).1
  | l :: m :: ls =>
    have hl := h l List.mem_cons_self
    rw [joinOperands, List.append_assoc, List.head?_append_of_ne_nil _ hl.1] at hc
    exact (hl.2 c (List.mem_of_mem_head? hc)).1

/-- Joined operands end with the last one's last character. -/
theorem getLast?_joinOperands {ls : List (List Char)} (h : ∀ l ∈ ls, IsOperand l) {c : Char}
    (hc : (joinOperands ls).getLast? = some c) : isBlankChar c = false := by
  match ls with
  | [] => cases hc
  | [l] => exact ((h l List.mem_cons_self).2 c (List.mem_of_getLast? hc)).1
  | l :: m :: ls =>
    have hrest : ∀ k ∈ m :: ls, IsOperand k := fun k hk => h k (List.mem_cons_of_mem l hk)
    have hne := joinOperands_ne_nil (List.cons_ne_nil m ls) hrest
    rw [joinOperands, List.getLast?_append_of_ne_nil _ hne] at hc
    exact getLast?_joinOperands hrest hc

/-- The operands of a line are read back from their joined text. -/
theorem parseOperands_joinOperands {ls : List (List Char)} (hne : ls ≠ []) (h : ∀ l ∈ ls, IsOperand l) :
    parseOperands (trimBlanks (joinOperands ls)) = ls := by
  rw [trimBlanks_of_head_getLast (fun _ => head?_joinOperands h) (fun _ => getLast?_joinOperands h), parseOperands,
    if_neg (by rw [List.isEmpty_iff]; exact joinOperands_ne_nil hne h), map_trimBlanks_splitAtChar_joinOperands hne h]

/-! ### The mnemonic -/

/-- What the assembler makes of a mnemonic, a blank and joined operands. -/
theorem parseInstr_of_operands {policy : CtrlPolicy} {table : List (List Char × Nat)} {b : Nat} {op : List Char}
    {ls : List (List Char)} {i : Instr} (hop : op.all (fun c => !isBlankChar c) = true) (hne : ls ≠ [])
    (hls : ∀ l ∈ ls, IsOperand l) (hparse : parseByMnemonic policy table b op ls = some i) (hwf : i.wf = true) :
    parseInstr policy table b (op ++ ' ' :: joinOperands ls) = some i := by
  have hmnemonic : ∀ c ∈ op, (!isBlankChar c) = true := List.all_eq_true.mp hop
  have htake : (op ++ ' ' :: joinOperands ls).takeWhile (fun c => !isBlankChar c) = op := by
    rw [List.takeWhile_append_of_pos hmnemonic, List.takeWhile_cons_of_neg (by decide), List.append_nil]
  have hdrop : (op ++ ' ' :: joinOperands ls).dropWhile (fun c => !isBlankChar c) = ' ' :: joinOperands ls := by
    rw [List.dropWhile_append_of_pos hmnemonic, List.dropWhile_cons_of_neg (by decide)]
  simp only [parseInstr, htake, hdrop, trimBlanks_cons_blank ' ' _ rfl, parseOperands_joinOperands hne hls, hparse, hwf,
    if_true]

/-! ### The operands of canonical text -/

theorem isOperand_renderReg (r : RegIdx) : IsOperand (renderReg r) := by
  refine ⟨List.cons_ne_nil _ _, fun c hc => ?_⟩
  rcases mem_renderReg hc with rfl | rfl | hdigit
  · decide
  · decide
  · exact ⟨(not_blank_of_isDigit hdigit).1, (not_blank_of_isDigit hdigit).2.1⟩

theorem renderInt_ne_nil (n : Int) : renderInt n ≠ [] := by
  unfold renderInt
  split
  · exact List.cons_ne_nil _ _
  · exact renderNat_ne_nil _

theorem isOperand_renderInt (n : Int) : IsOperand (renderInt n) := by
  refine ⟨renderInt_ne_nil n, fun c hc => ?_⟩
  rcases mem_renderInt hc with rfl | hdigit
  · decide
  · exact ⟨(not_blank_of_isDigit hdigit).1, (not_blank_of_isDigit hdigit).2.1⟩

theorem renderNat_eq_renderInt (n : Nat) : renderNat n = renderInt (n : Int) := by
  rw [renderInt, if_neg (by omega), Int.natAbs_natCast]

/-- The text of an address operand, `offset(rs)`. -/
def renderMemOperand (rs : RegIdx) (offset : Int) : List Char := renderInt offset ++ '(' :: (renderReg rs ++ [')'])

theorem isOperand_renderMemOperand (rs : RegIdx) (offset : Int) : IsOperand (renderMemOperand rs offset) := by
  refine ⟨List.append_ne_nil_of_left_ne_nil (renderInt_ne_nil offset) _, fun c hc => ?_⟩
  simp only [renderMemOperand, List.mem_append, List.mem_cons, List.not_mem_nil, or_false] at hc
  rcases hc with hc | rfl | hc | rfl
  · exact (isOperand_renderInt offset).2 c hc
  · decide
  · exact (isOperand_renderReg rs).2 c hc
  · decide

/-- An address operand is cut at its parenthesis, of which an integer has none. -/
@[simp] theorem parseMemOperand_renderMemOperand (rs : RegIdx) (offset : Int) :
    parseMemOperand (renderMemOperand rs offset) = some (offset, rs) := by
  have hint : ∀ c ∈ renderInt offset, decide (c ≠ '(') = true := fun c hc => by
    rcases mem_renderInt hc with rfl | hdigit
    · decide
    · exact decide_eq_true (not_blank_of_isDigit hdigit).2.2.1
  have htake : (renderMemOperand rs offset).takeWhile (· ≠ '(') = renderInt offset := by
    rw [renderMemOperand, List.takeWhile_append_of_pos hint, List.takeWhile_cons_of_neg (by decide), List.append_nil]
  have hdrop : (renderMemOperand rs offset).dropWhile (· ≠ '(') = '(' :: (renderReg rs ++ [')']) := by
    rw [renderMemOperand, List.dropWhile_append_of_pos hint, List.dropWhile_cons_of_neg (by decide)]
  simp only [parseMemOperand, htake, hdrop, List.getLast?_concat, List.dropLast_concat, if_true, parseInt_renderInt,
    parseReg_renderReg]

/-! ### Each family of instructions -/

/-- Canonical text is the mnemonic, a blank and the joined operands. -/
theorem renderRType_eq (op : List Char) (rd rs rt : RegIdx) :
    renderRType op rd rs rt = op ++ ' ' :: joinOperands [renderReg rd, renderReg rs, renderReg rt] := by
  simp [renderRType, joinOperands]

theorem renderMemType_eq (op : List Char) (rs rt : RegIdx) (offset : Int) :
    renderMemType op rs rt offset = op ++ ' ' :: joinOperands [renderReg rt, renderMemOperand rs offset] := by
  simp [renderMemType, joinOperands, renderMemOperand]

theorem render_beq_eq (rs rt : RegIdx) (offset : Int) :
    render (.beq rs rt offset) =
      ['b', 'e', 'q'] ++ ' ' :: joinOperands [renderReg rs, renderReg rt, renderInt offset] := by
  simp [render, joinOperands]

theorem render_j_eq (target : Nat) : render (.j target) = ['j'] ++ ' ' :: joinOperands [renderInt (target : Int)] := by
  simp [render, joinOperands, renderNat_eq_renderInt]

theorem parseInstr_renderRType {policy : CtrlPolicy} {table : List (List Char × Nat)} {b : Nat} {op : List Char}
    {build : RegIdx → RegIdx → RegIdx → Instr} (hop : op.all (fun c => !isBlankChar c) = true)
    (hparse : ∀ ls, parseByMnemonic policy table b op ls = parseRType build ls) (rd rs rt : RegIdx)
    (hwf : (build rd rs rt).wf = true) :
    parseInstr policy table b (renderRType op rd rs rt) = some (build rd rs rt) := by
  rw [renderRType_eq]
  refine parseInstr_of_operands hop (List.cons_ne_nil _ _) ?_ ?_ hwf
  · simp [isOperand_renderReg]
  · simp [hparse, parseRType]

theorem parseInstr_renderMemType {policy : CtrlPolicy} {table : List (List Char × Nat)} {b : Nat} {op : List Char}
    {build : RegIdx → RegIdx → Int → Instr} (hop : op.all (fun c => !isBlankChar c) = true)
    (hparse : ∀ ls, parseByMnemonic policy table b op ls = parseMemType build ls) (rs rt : RegIdx) (offset : Int)
    (hwf : (build rs rt offset).wf = true) :
    parseInstr policy table b (renderMemType op rs rt offset) = some (build rs rt offset) := by
  rw [renderMemType_eq]
  refine parseInstr_of_operands hop (List.cons_ne_nil _ _) ?_ ?_ hwf
  · simp [isOperand_renderReg, isOperand_renderMemOperand]
  · simp [hparse, parseMemType]

theorem labelAddress_nil (name : List Char) : labelAddress [] name = none := rfl

theorem parseInstr_render_beq (policy : CtrlPolicy) (b : Nat) (rs rt : RegIdx) (offset : Int)
    (hwf : (Instr.beq rs rt offset).wf = true) :
    parseInstr policy [] b (render (.beq rs rt offset)) = some (.beq rs rt offset) := by
  have htarget : parseBeqTarget policy [] b (renderInt offset) = some offset := by
    rw [parseBeqTarget, labelAddress_nil]
    exact parseInt_renderInt offset
  rw [render_beq_eq]
  refine parseInstr_of_operands rfl (List.cons_ne_nil _ _) ?_ ?_ hwf
  · simp [isOperand_renderReg, isOperand_renderInt]
  · simp [parseByMnemonic, parseBeq, htarget]

theorem parseInstr_render_j (policy : CtrlPolicy) (b target : Nat) (hwf : (Instr.j target).wf = true) :
    parseInstr policy [] b (render (.j target)) = some (.j target) := by
  have htarget : parseJTarget [] (renderInt (target : Int)) = some target := by
    simp [parseJTarget, labelAddress_nil]
  rw [render_j_eq]
  refine parseInstr_of_operands rfl (List.cons_ne_nil _ _) ?_ ?_ hwf
  · simp [isOperand_renderInt]
  · simp [parseByMnemonic, parseJ, htarget]

/-- Settles O51, family by family. -/
theorem assemblerReadsCanonicalText : Obligations.AssemblerReadsCanonicalText := by
  unfold Obligations.AssemblerReadsCanonicalText
  intro policy b i hwf
  cases i with
  | add rd rs rt => exact parseInstr_renderRType rfl (fun _ => rfl) rd rs rt hwf
  | sub rd rs rt => exact parseInstr_renderRType rfl (fun _ => rfl) rd rs rt hwf
  | mul rd rs rt => exact parseInstr_renderRType rfl (fun _ => rfl) rd rs rt hwf
  | lw rs rt offset => exact parseInstr_renderMemType rfl (fun _ => rfl) rs rt offset hwf
  | sw rs rt offset => exact parseInstr_renderMemType rfl (fun _ => rfl) rs rt offset hwf
  | beq rs rt offset => exact parseInstr_render_beq policy b rs rt offset hwf
  | j target => exact parseInstr_render_j policy b target hwf
  | nop => rfl

end Sys2Proof.Machine
end
